-- ==== Sys2Proof/Word.lean ====
section
/-! DEFINITION. The 16-bit word of the machine: a general register, the pc, a memory word and an
instruction word are all one of these (R7, R20, R24, R34, R80). -/

namespace Sys2Proof

/-- A `u16` of the spec (R7): an integer from 0 to 65,535, bit 15 the most significant (R6). -/
abbrev Word := BitVec 16

end Sys2Proof
end

