-- ==== Sys2Proof/Config.lean ====
section
/-! DEFINITION. The parameters of the implementation (R5). None is left open: the spec closes every
one of them, so this file holds no free value. `NREGS`, `XLEN`, `PCLEN`, `WORDLEN`, `ILEN` and
`OPBITS` are carried by the types `Reg`, `Word` and `BitVec 4`; `START` and `IMAGE` are inputs of a
load (R293) and no parameters of the model. -/

namespace Sys2Proof

/-- `MEMWORDS`: the number of memory words (R5, R34). -/
abbrev Config.memWords : Nat := 65536

/-- `HALT_VECTOR`: the trap vector that ends the run (R5, R233). -/
abbrev Config.haltVector : BitVec 8 := 0x25#8

/-- What a memory word reads as while neither a load nor a store nor the host has written it:
every word is 0x0000 at reset (R37, R291). -/
abbrev Config.unlistedWord : Word := 0x0000#16

/-- How many words a memory dump shows on each side of its address (R334). -/
abbrev Config.dumpRadius : Nat := 4

end Sys2Proof
end

