-- ==== Sys2Proof/Syntax.lean ====
section
/-! DEFINITION. Registers by name and the instruction set: one constructor of `Instr` for each row of
spec/opcode_table.json, in the table's order. An operand field is kept as the bits the word holds;
bits that no field uses (R100) are no part of an instruction. -/

namespace Sys2Proof

/-- The eight general registers (R20). None is hardwired; R7 is the link register by convention only
(R21). -/
inductive Reg where
  | r0 | r1 | r2 | r3 | r4 | r5 | r6 | r7
deriving DecidableEq, Repr

/-- The instructions. Every one is a single 16-bit word (R80). -/
inductive Instr where
  /-- The word 0x0000, which stops the run before it is dispatched (R101, R122). -/
  | stop0
  /-- BR: branch when the bit of the current condition code is set (R203). -/
  | br (n z p : Bool) (pcOffset9 : BitVec 9)
  /-- ADD, register form (R142). -/
  | addReg (dr sr1 sr2 : Reg)
  /-- ADD, immediate form (R143). -/
  | addImm (dr sr1 : Reg) (imm5 : BitVec 5)
  /-- LD: pc-relative load (R162). -/
  | ld (dr : Reg) (pcOffset9 : BitVec 9)
  /-- ST: pc-relative store (R182). -/
  | st (sr : Reg) (pcOffset9 : BitVec 9)
  /-- JSR: link in R7, jump pc-relative (R214). -/
  | jsr (pcOffset11 : BitVec 11)
  /-- JSRR: link in R7, then jump through a register (R218). -/
  | jsrr (baseR : Reg)
  /-- AND, register form (R146). -/
  | andReg (dr sr1 sr2 : Reg)
  /-- AND, immediate form (R147). -/
  | andImm (dr sr1 : Reg) (imm5 : BitVec 5)
  /-- LDR: base plus offset load (R170). -/
  | ldr (dr baseR : Reg) (offset6 : BitVec 6)
  /-- STR: base plus offset store (R190). -/
  | str (sr baseR : Reg) (offset6 : BitVec 6)
  /-- A word of the unknown opcode 0x8, with its other twelve bits (R102, R126). -/
  | unknown8 (rest : BitVec 12)
  /-- NOT: bitwise complement (R150). -/
  | not (dr sr : Reg)
  /-- LDI: indirect load (R166). -/
  | ldi (dr : Reg) (pcOffset9 : BitVec 9)
  /-- STI: indirect store (R186). -/
  | sti (sr : Reg) (pcOffset9 : BitVec 9)
  /-- RET: the name of JMP through R7 (R103, R209). -/
  | ret
  /-- JMP: jump through a register (R208). -/
  | jmp (baseR : Reg)
  /-- A word of the unknown opcode 0xD, with its other twelve bits (R102, R126). -/
  | unknownD (rest : BitVec 12)
  /-- LEA: load the pc-relative address itself (R174). -/
  | lea (dr : Reg) (pcOffset9 : BitVec 9)
  /-- HALT: the name of TRAP with vector 0x25 (R104, R233). -/
  | halt
  /-- TRAP: jump to the vector (R232). -/
  | trap (trapvect8 : BitVec 8)
deriving DecidableEq, Repr

end Sys2Proof
end

