-- ==== Sys2Proof/WellFormed.lean ====
section
/-! DEFINITION. Which terms of `Instr` a word stands for. Every value of every field is legal (R84,
R105), so the only ill-formed terms are those whose word the table gives to an earlier row: the word
0x0000 is `stop0` and no BR (R101), JMP through R7 is `ret` (R103), TRAP 0x25 is `halt` (R104). -/

namespace Sys2Proof

/-- The term is the one its word stands for when it is fetched (`decodeWord`). -/
def Instr.wf : Instr → Bool
  | .br n z p off => n || z || p || decide (off ≠ 0)
  | .jmp baseR => decide (baseR ≠ .r7)
  | .trap v => decide (v ≠ Config.haltVector)
  | .stop0 | .addReg .. | .addImm .. | .ld .. | .st .. | .jsr .. | .jsrr .. | .andReg ..
  | .andImm .. | .ldr .. | .str .. | .unknown8 .. | .not .. | .ldi .. | .sti .. | .ret
  | .unknownD .. | .lea .. | .halt => true

end Sys2Proof
end

