-- ==== Sys2Proof/Decode.lean ====
section
/-! DEFINITION. The fields of an instruction word, the decoder (R107), total on all 65,536 words and
giving each exactly one meaning (R105), the zero-word test before it, and after it the encoder (R108). The field positions are
those of R83; the spec marks the register fields, bit 5 of ADD and AND and the n, z, p bits as
supplied from general knowledge (log entry 6). -/

namespace Sys2Proof

/-- The 3-bit number of a register (R84). -/
def Reg.bits : Reg → BitVec 3
  | .r0 => 0 | .r1 => 1 | .r2 => 2 | .r3 => 3 | .r4 => 4 | .r5 => 5 | .r6 => 6 | .r7 => 7

/-- The register a 3-bit field names: all eight values are legal (R84). -/
def Reg.ofBits (b : BitVec 3) : Reg :=
  match b.toNat with
  | 0 => .r0 | 1 => .r1 | 2 => .r2 | 3 => .r3 | 4 => .r4 | 5 => .r5 | 6 => .r6 | _ => .r7

/-- `ir[15:12]` (R81). -/
def Field.opcode (ir : Word) : BitVec 4 := ir.extractLsb' 12 4

/-- The register field `ir[11:9]`: `DR`, and `SR` of a store (R84). -/
def Field.regAt9 (ir : Word) : Reg := Reg.ofBits (ir.extractLsb' 9 3)

/-- The register field `ir[8:6]`: `SR1`, `SR` of NOT, `BaseR` (R84). -/
def Field.regAt6 (ir : Word) : Reg := Reg.ofBits (ir.extractLsb' 6 3)

/-- The register field `ir[2:0]`: `SR2` (R84). -/
def Field.regAt0 (ir : Word) : Reg := Reg.ofBits (ir.extractLsb' 0 3)

/-- `imm5`, `ir[4:0]` (R86). -/
def Field.imm5 (ir : Word) : BitVec 5 := ir.extractLsb' 0 5

/-- `offset6`, `ir[5:0]` (R86). -/
def Field.offset6 (ir : Word) : BitVec 6 := ir.extractLsb' 0 6

/-- `PCoffset9`, `ir[8:0]` (R86). -/
def Field.pcOffset9 (ir : Word) : BitVec 9 := ir.extractLsb' 0 9

/-- `PCoffset11`, `ir[10:0]` (R86). -/
def Field.pcOffset11 (ir : Word) : BitVec 11 := ir.extractLsb' 0 11

/-- `trapvect8`, `ir[7:0]` (R86). -/
def Field.trapvect8 (ir : Word) : BitVec 8 := ir.extractLsb' 0 8

/-- The twelve bits below the opcode, kept for an unknown word (R107 `Unknown { ir }`). -/
def Field.rest (ir : Word) : BitVec 12 := ir.extractLsb' 0 12

/-- The form bit of ADD and AND, `ir[5]`: set for the immediate form (R85). -/
def Field.mode5 (ir : Word) : Bool := ir.getLsbD 5

/-- The form bit of opcode 0x4, `ir[11]`: set for JSR (R88). -/
def Field.mode11 (ir : Word) : Bool := ir.getLsbD 11

/-- The decoder (R107), which the engine applies after its zero-word test. Given 0x0000 it yields a BR
with no condition bit and offset 0. JMP with base register 7 goes by the name RET and TRAP with vector
0x25 by the name HALT (R103, R104). Opcodes 0x8 and 0xD are rejected by name as the unknown instructions
`unknown8` and `unknownD` (R102). Unused bits are not looked at (R100). -/
def decode (ir : Word) : Instr :=
  match (Field.opcode ir).toNat with
  | 0x0 => .br (ir.getLsbD 11) (ir.getLsbD 10) (ir.getLsbD 9) (Field.pcOffset9 ir)
  | 0x1 =>
    if Field.mode5 ir then .addImm (Field.regAt9 ir) (Field.regAt6 ir) (Field.imm5 ir)
    else .addReg (Field.regAt9 ir) (Field.regAt6 ir) (Field.regAt0 ir)
  | 0x2 => .ld (Field.regAt9 ir) (Field.pcOffset9 ir)
  | 0x3 => .st (Field.regAt9 ir) (Field.pcOffset9 ir)
  | 0x4 => if Field.mode11 ir then .jsr (Field.pcOffset11 ir) else .jsrr (Field.regAt6 ir)
  | 0x5 =>
    if Field.mode5 ir then .andImm (Field.regAt9 ir) (Field.regAt6 ir) (Field.imm5 ir)
    else .andReg (Field.regAt9 ir) (Field.regAt6 ir) (Field.regAt0 ir)
  | 0x6 => .ldr (Field.regAt9 ir) (Field.regAt6 ir) (Field.offset6 ir)
  | 0x7 => .str (Field.regAt9 ir) (Field.regAt6 ir) (Field.offset6 ir)
  | 0x8 => .unknown8 (Field.rest ir)
  | 0x9 => .not (Field.regAt9 ir) (Field.regAt6 ir)
  | 0xA => .ldi (Field.regAt9 ir) (Field.pcOffset9 ir)
  | 0xB => .sti (Field.regAt9 ir) (Field.pcOffset9 ir)
  | 0xC => if Field.regAt6 ir = .r7 then .ret else .jmp (Field.regAt6 ir)
  | 0xD => .unknownD (Field.rest ir)
  | 0xE => .lea (Field.regAt9 ir) (Field.pcOffset9 ir)
  | _ => -- 0xF, the one opcode left
    if Field.trapvect8 ir = Config.haltVector then .halt else .trap (Field.trapvect8 ir)

/-- The instruction a word stands for when it is fetched: the engine's zero-word test (R101, R122) and
then the decoder. This is how the opcode table reads a word, whose row STOP0 has priority over BR. -/
def decodeWord (ir : Word) : Instr := if ir = 0x0000#16 then .stop0 else decode ir

/-- The opcode of an instruction (R99). -/
def Instr.opcode : Instr → BitVec 4
  | .stop0 | .br .. => 0x0
  | .addReg .. | .addImm .. => 0x1
  | .ld .. => 0x2
  | .st .. => 0x3
  | .jsr .. | .jsrr .. => 0x4
  | .andReg .. | .andImm .. => 0x5
  | .ldr .. => 0x6
  | .str .. => 0x7
  | .unknown8 .. => 0x8
  | .not .. => 0x9
  | .ldi .. => 0xA
  | .sti .. => 0xB
  | .ret | .jmp .. => 0xC
  | .unknownD .. => 0xD
  | .lea .. => 0xE
  | .halt | .trap .. => 0xF

/-- The twelve bits below the opcode, laid out by the formats of R89 to R98. Unused bits are 0, but
for the six of NOT, which are 1 (R100, R108). -/
def Instr.operandBits : Instr → BitVec 12
  | .stop0 => 0
  | .br n z p off => BitVec.ofBool n ++ BitVec.ofBool z ++ BitVec.ofBool p ++ off
  | .addReg dr sr1 sr2 | .andReg dr sr1 sr2 => dr.bits ++ sr1.bits ++ 0b000#3 ++ sr2.bits
  | .addImm dr sr1 imm5 | .andImm dr sr1 imm5 => dr.bits ++ sr1.bits ++ 0b1#1 ++ imm5
  | .ld r off | .ldi r off | .lea r off | .st r off | .sti r off => r.bits ++ off
  | .ldr r baseR off | .str r baseR off => r.bits ++ baseR.bits ++ off
  | .not dr sr => dr.bits ++ sr.bits ++ 0b111111#6
  | .jsr off => 0b1#1 ++ off
  | .jsrr baseR => 0b000#3 ++ baseR.bits ++ 0b000000#6
  | .jmp baseR => 0b000#3 ++ baseR.bits ++ 0b000000#6
  | .ret => 0b000#3 ++ 0b111#3 ++ 0b000000#6
  | .trap v => 0b0000#4 ++ v
  | .halt => 0b0000#4 ++ Config.haltVector
  | .unknown8 rest | .unknownD rest => rest

/-- The encoder (R108). -/
def encode (i : Instr) : Word := i.opcode ++ i.operandBits

/-- The instruction read from a word numbered as spec/opcode_table.json numbers it. An
instruction is one 16-bit word (R80), so the bits are the word itself; bits above `nbits` are 0. -/
def decodeTableWord (nbits w : Nat) : Option Instr :=
  some (decodeWord (BitVec.ofNat 16 (w % 2 ^ nbits)))

end Sys2Proof
end

