-- ==== Sys2Proof/Machine/State.lean ====
section
/-! DEFINITION. The architectural state (R36), the reasons a step could stop without a next state, and
the state after reset (R37, R291). -/

namespace Sys2Proof.Machine

/-- The condition code: exactly one of three values at any time (R27). -/
inductive CC where
  | n | z | p
deriving DecidableEq, Repr

/-- Why the engine entered Halted; `none` while it has not (R33, R250). -/
inductive StopCause where
  /-- The engine has not stopped. -/
  | none
  /-- TRAP 0x25 ended the run (R233). -/
  | halt
  /-- The word 0x0000 was fetched (R122). -/
  | zeroWord
  /-- A word of opcode 0x8 or 0xD was dispatched (R126). -/
  | unknownOpcode
  /-- A computed address or pc value fell outside 0 to 65,535 (R255). -/
  | outOfBounds
  /-- The host asked for the stop between two steps (R256). -/
  | operatorStop
deriving DecidableEq, Repr

/-- The register file (R20): one bank of eight 16-bit registers. -/
structure Regs where
  r0 : Word
  r1 : Word
  r2 : Word
  r3 : Word
  r4 : Word
  r5 : Word
  r6 : Word
  r7 : Word
deriving DecidableEq, Repr

/-- Memory as (word address, 16-bit word) pairs. The word is the only addressable unit and there is no
byte order (R50, R51), so a cell is a word and not a byte (log entry 2). The canonical form is
`Memory.wf` in Machine/Ops.lean. -/
abbrev Memory := List (Nat × Word)

/-- The state of the machine, the record of R36 and nothing more. -/
structure State where
  /-- The general registers, the spec's `x` (R20). -/
  x : Regs
  /-- The program counter (R24). -/
  pc : Word
  /-- The condition code (R27). -/
  cc : CC
  /-- The run flag: true in Ready, false in Halted (R31). -/
  run : Bool
  /-- The stop cause (R33). -/
  stop : StopCause
  /-- The memory, the spec's `M` (R34). -/
  mem : Memory
deriving DecidableEq, Repr

/-- Why a step could end with no next state: never. Every stop of this hardware is a state the engine
goes to (R250, R262), so no rule raises a fault and the type has no constructor. Safe: nothing is
cut short. -/
inductive Fault : Type
deriving DecidableEq, Repr

/-- Why an instruction could be refused. -/
inductive Refusal where
  /-- Raised by an arm of `exec` for an instruction that has no meaning yet. No arm of this model does.
  Safe: a refusal proves nothing about the hardware. -/
  | notModelled (mnemonic : String)
deriving DecidableEq, Repr

/-- What a step or a meaning answers. -/
abbrev Result := Host.Outcome State Fault Refusal

/-- The created state (R291): registers and memory zero, cc Z, Ready, the pc 0x0000 until a load sets
it. -/
def State.reset : State where
  x := ⟨0, 0, 0, 0, 0, 0, 0, 0⟩
  pc := 0x0000#16
  cc := .z
  run := true
  stop := .none
  mem := []

end Sys2Proof.Machine
end

