-- ==== Sys2Proof/Machine/Ops.lean ====
section
/-! DEFINITION. The named operations over registers, memory and the control state: the one way a
meaning reads or writes any of them. Stopping the run (the spec's `raise`, R12, R262) is one operation
here; there is no trap entry and no return from one on this hardware (R266, R267). -/

namespace Sys2Proof.Machine

/-! ## Numbers -/

/-- `trunc16` (R9): the residue of an exact integer modulo 65,536. -/
def trunc16 (x : Int) : Word := BitVec.ofInt 16 x

/-- The bounds check of R55: the integer is an address, 0 to `MEMWORDS - 1`. -/
abbrev InRange (x : Int) : Prop := 0 ≤ x ∧ x ≤ 65535

/-! ## General registers -/

/-- Register `r` of a register file. -/
def Regs.get (x : Regs) : Reg → Word
  | .r0 => x.r0 | .r1 => x.r1 | .r2 => x.r2 | .r3 => x.r3
  | .r4 => x.r4 | .r5 => x.r5 | .r6 => x.r6 | .r7 => x.r7

/-- A register file with `v` in register `r`: any register is written like any other (R21). -/
def Regs.set (x : Regs) (r : Reg) (v : Word) : Regs :=
  match r with
  | .r0 => { x with r0 := v } | .r1 => { x with r1 := v }
  | .r2 => { x with r2 := v } | .r3 => { x with r3 := v }
  | .r4 => { x with r4 := v } | .r5 => { x with r5 := v }
  | .r6 => { x with r6 := v } | .r7 => { x with r7 := v }

/-- `x[r]` (R10). -/
def State.rd (s : State) (r : Reg) : Word := s.x.get r

/-- `x[r] <- v` (R10). -/
def State.wr (s : State) (r : Reg) (v : Word) : State := { s with x := s.x.set r v }

/-- `pc <- t` (R10). -/
def State.setPc (s : State) (t : Word) : State := { s with pc := t }

/-! ## Memory -/

/-- The word listed at an address, or what an unlisted address reads as. -/
def Memory.get : Memory → Nat → Word
  | [], _ => Config.unlistedWord
  | c :: m, a => if c.1 = a then c.2 else Memory.get m a

/-- The list without any entry for the address. -/
def Memory.erase (m : Memory) (a : Nat) : Memory := m.filter fun c => decide (c.1 ≠ a)

/-- The list with one more entry, before the first entry of a higher address. -/
def Memory.insert : Memory → Nat → Word → Memory
  | [], a, v => [(a, v)]
  | c :: m, a, v => if a < c.1 then (a, v) :: c :: m else c :: Memory.insert m a v

/-- The list after the word at the address is set, in canonical form: the value an unlisted address
reads as is not listed. -/
def Memory.put (m : Memory) (a : Nat) (v : Word) : Memory :=
  if v = Config.unlistedWord then m.erase a else (m.erase a).insert a v

/-- `M[a]` (R34). -/
def Memory.read (m : Memory) (a : Word) : Word := m.get a.toNat

/-- `M[a] <- v` (R34). -/
def Memory.write (m : Memory) (a v : Word) : Memory := m.put a.toNat v

/-- The addresses rise strictly. -/
def Memory.sorted : Memory → Bool
  | [] => true
  | [_] => true
  | c :: d :: m => decide (c.1 < d.1) && Memory.sorted (d :: m)

/-- The canonical form of memory: addresses strictly rising, each below `MEMWORDS`, and no entry equal
to what an unlisted address reads as. -/
def Memory.wf (m : Memory) : Bool :=
  m.sorted && m.all fun c => decide (c.1 < Config.memWords) && decide (c.2 ≠ Config.unlistedWord)

/-- `M[a] <- v` on the machine (R10, R54): no other word and nothing else changes. -/
def State.setMem (s : State) (a v : Word) : State := { s with mem := s.mem.write a v }

/-- `MemRead(addr, 1)` (R11, R55): the word, or nothing where the primitive raises OutOfBounds. -/
def memRead (s : State) (addr : Int) : Option Word :=
  if InRange addr then some (s.mem.read (trunc16 addr)) else none

/-- `MemWrite(addr, 1, v)` (R11, R55): the state after, or nothing where the primitive raises
OutOfBounds. -/
def memWrite (s : State) (addr : Int) (v : Word) : Option State :=
  if InRange addr then some (s.setMem (trunc16 addr) v) else none

/-! ## Stopping the run -/

/-- The engine goes to Halted with a cause (R12, R32, R33): the run flag and the stop cause are written
together and nothing else changes (R262). -/
def State.stopWith (s : State) (c : StopCause) : State := { s with run := false, stop := c }

/-- `raise OutOfBounds` inside a handler (R12, R262): the handler's writes do not happen and the pc stays
where the fetch left it. -/
def raiseOutOfBounds (s : State) : Result := .next (s.stopWith .outOfBounds)

/-- A checked transfer to an exact target (R201): `k` says what the state becomes with the target as a
16-bit pc value, and a target outside 0 to 65,535 raises before any write. -/
def jumpChecked (s : State) (target : Int) (k : Word → State) : Result :=
  if InRange target then .next (k (trunc16 target)) else raiseOutOfBounds s

end Sys2Proof.Machine
end

