-- ==== Sys2Proof/Machine/Operands.lean ====
section
/-! DEFINITION. Operand forms: sign extension (R8) and the three addressing modes (R160). Every address
is an exact integer; the check is made by the operation that uses it (R56). In all of them `s.pc` is
the incremented pc (R124). -/

namespace Sys2Proof.Machine

/-- `sext_N` (R8): subtract `2^N` from the unsigned value when bit `N-1` is set. -/
def sext {n : Nat} (v : BitVec n) : Int := if v.msb then (v.toNat : Int) - 2 ^ n else (v.toNat : Int)

/-- The pc-relative address of a 9-bit offset (R160). -/
def pcRel9 (s : State) (off : BitVec 9) : Int := (s.pc.toNat : Int) + sext off

/-- The pc-relative target of an 11-bit offset (R214). -/
def pcRel11 (s : State) (off : BitVec 11) : Int := (s.pc.toNat : Int) + sext off

/-- The base plus offset address (R160). -/
def baseOff6 (s : State) (baseR : Reg) (off : BitVec 6) : Int := ((s.rd baseR).toNat : Int) + sext off

/-- A 5-bit immediate as a 16-bit operand (R85, R147). -/
def immWord (imm : BitVec 5) : Word := trunc16 (sext imm)

/-- A register plus an exact integer, truncated on the write (R23, R140). -/
def addTrunc (a : Word) (k : Int) : Word := trunc16 ((a.toNat : Int) + k)

/-- The address a trap vector names (R86, R232): zero-extended. -/
def vectorAddress (v : BitVec 8) : Word := v.zeroExtend 16

end Sys2Proof.Machine
end

