-- ==== Sys2Proof/Machine/Flags.lean ====
section
/-! DEFINITION. The one flag computation of the hardware: the condition code from the stored 16-bit
value (R29), and its one reader, the test of BR (R87, R203). -/

namespace Sys2Proof.Machine

/-- The condition code of a stored value (R29). -/
def ccOf (v : Word) : CC := if v = 0x0000#16 then .z else if v.getLsbD 15 then .n else .p

/-- `setcc(v)` (R13, R29). -/
def State.setcc (s : State) (v : Word) : State := { s with cc := ccOf v }

/-- `x[dr] <- v; setcc(v)`: how each of the seven register-writing data instructions ends (R28). -/
def State.writeBack (s : State) (dr : Reg) (v : Word) : State := (s.wr dr v).setcc v

/-- The condition bit that stands for the current condition code is set (R87, R203). -/
def branchTaken (n z p : Bool) (cc : CC) : Bool :=
  match cc with
  | .n => n
  | .z => z
  | .p => p

end Sys2Proof.Machine
end

