-- ==== Sys2Proof/Machine/Control.lean ====
section
/-! DEFINITION. BR, JMP, RET, JSR and JSRR (44_control.md): no memory access and no write of the
condition code. -/

namespace Sys2Proof.Machine

/-- BR (R203): a branch not taken computes no target and cannot raise. -/
def execBr (n z p : Bool) (pcOffset9 : BitVec 9) (s : State) : Result :=
  if branchTaken n z p s.cc then jumpChecked s (pcRel9 s pcOffset9) s.setPc else .next s

/-- The pc becomes a register's value, which is always a legal pc (R208). -/
def jumpRegister (baseR : Reg) (s : State) : Result := .next (s.setPc (s.rd baseR))

/-- JMP (R208). -/
def execJmp (baseR : Reg) (s : State) : Result := jumpRegister baseR s

/-- RET (R209): the jump of JMP through R7. -/
def execRet (s : State) : Result := jumpRegister .r7 s

/-- JSR (R214): the target is checked before R7 is written. -/
def execJsr (pcOffset11 : BitVec 11) (s : State) : Result :=
  jumpChecked s (pcRel11 s pcOffset11) (s.wr .r7 s.pc).setPc

/-- JSRR (R218, R219): R7 is written first and the base register is read after it, so JSRR R7 falls
through. -/
def execJsrr (baseR : Reg) (s : State) : Result :=
  let linked := s.wr .r7 s.pc
  .next (linked.setPc (linked.rd baseR))

end Sys2Proof.Machine
end

