-- ==== Sys2Proof/Machine/Loads.lean ====
section
/-! DEFINITION. LD, LDI, LDR and LEA (42_loads.md). Every memory read comes before the register write,
so a load that raises writes nothing (R161). -/

namespace Sys2Proof.Machine

/-- Load a register from an exact address and set the condition code from the word (R162, R170). -/
def loadFrom (dr : Reg) (ea : Int) (s : State) : Result :=
  match memRead s ea with
  | none => raiseOutOfBounds s
  | some v => .next (s.writeBack dr v)

/-- LD (R162). -/
def execLd (dr : Reg) (pcOffset9 : BitVec 9) (s : State) : Result :=
  loadFrom dr (pcRel9 s pcOffset9) s

/-- LDI (R166): the word at the pc-relative address is the address of the word loaded. -/
def execLdi (dr : Reg) (pcOffset9 : BitVec 9) (s : State) : Result :=
  match memRead s (pcRel9 s pcOffset9) with
  | none => raiseOutOfBounds s
  | some p => loadFrom dr (p.toNat : Int) s

/-- LDR (R170). -/
def execLdr (dr baseR : Reg) (offset6 : BitVec 6) (s : State) : Result :=
  loadFrom dr (baseOff6 s baseR offset6) s

/-- LEA (R174, R175): the address wraps in the register and never raises. -/
def execLea (dr : Reg) (pcOffset9 : BitVec 9) (s : State) : Result :=
  .next (s.writeBack dr (trunc16 (pcRel9 s pcOffset9)))

end Sys2Proof.Machine
end

