-- ==== Sys2Proof/Machine/Operate.lean ====
section
/-! DEFINITION. ADD, AND and NOT (41_operate.md): a register result, the condition code from it, no
memory access, no raise (R152). -/

namespace Sys2Proof.Machine

/-- ADD, register form (R142). -/
def execAddReg (dr sr1 sr2 : Reg) (s : State) : Result :=
  .next (s.writeBack dr (addTrunc (s.rd sr1) ((s.rd sr2).toNat : Int)))

/-- ADD, immediate form (R143). -/
def execAddImm (dr sr1 : Reg) (imm5 : BitVec 5) (s : State) : Result :=
  .next (s.writeBack dr (addTrunc (s.rd sr1) (sext imm5)))

/-- AND, register form (R146). -/
def execAndReg (dr sr1 sr2 : Reg) (s : State) : Result :=
  .next (s.writeBack dr (s.rd sr1 &&& s.rd sr2))

/-- AND, immediate form (R147). -/
def execAndImm (dr sr1 : Reg) (imm5 : BitVec 5) (s : State) : Result :=
  .next (s.writeBack dr (s.rd sr1 &&& immWord imm5))

/-- NOT (R150). -/
def execNot (dr sr : Reg) (s : State) : Result := .next (s.writeBack dr (~~~ (s.rd sr)))

end Sys2Proof.Machine
end

