-- ==== Sys2Proof/Machine/Stores.lean ====
section
/-! DEFINITION. ST, STI and STR (43_stores.md): one memory word written, no register and no condition
code; a store that raises writes nothing (R180, R181). -/

namespace Sys2Proof.Machine

/-- Store a word at an exact address (R182, R190). -/
def storeTo (ea : Int) (v : Word) (s : State) : Result :=
  match memWrite s ea v with
  | none => raiseOutOfBounds s
  | some s' => .next s'

/-- ST (R182). -/
def execSt (sr : Reg) (pcOffset9 : BitVec 9) (s : State) : Result :=
  storeTo (pcRel9 s pcOffset9) (s.rd sr) s

/-- STI (R186): the word at the pc-relative address is the address stored to. -/
def execSti (sr : Reg) (pcOffset9 : BitVec 9) (s : State) : Result :=
  match memRead s (pcRel9 s pcOffset9) with
  | none => raiseOutOfBounds s
  | some p => storeTo (p.toNat : Int) (s.rd sr) s

/-- STR (R190). -/
def execStr (sr baseR : Reg) (offset6 : BitVec 6) (s : State) : Result :=
  storeTo (baseOff6 s baseR offset6) (s.rd sr) s

end Sys2Proof.Machine
end

