-- ==== Sys2Proof/Machine/Trap.lean ====
section
/-! DEFINITION. TRAP and HALT (45_trap.md), and the words that end the run without a handler: the zero
word (R122) and the unknown opcodes (R126). -/

namespace Sys2Proof.Machine

/-- The TRAP handler (R232, R234): an absolute jump to the vector that saves nothing; vector 0x25 also
ends the run (R233). -/
def trapTo (v : BitVec 8) (s : State) : Result :=
  let jumped := s.setPc (vectorAddress v)
  .next (if v = Config.haltVector then jumped.stopWith .halt else jumped)

/-- TRAP (R232). -/
def execTrap (trapvect8 : BitVec 8) (s : State) : Result := trapTo trapvect8 s

/-- HALT (R233): the TRAP handler with vector 0x25. -/
def execHalt (s : State) : Result := trapTo Config.haltVector s

/-- The zero word (R122), given the state before the pc is advanced. -/
def execStop0 (s : State) : Result := .next (s.stopWith .zeroWord)

/-- A word that no handler exists for (R126), given the state after the pc is advanced. -/
def unknownOpcode (s : State) : Result := .next (s.stopWith .unknownOpcode)

/-- A word of opcode 0x8 (R102, R126), whatever its other bits. -/
def execUnknown8 (_rest : BitVec 12) (s : State) : Result := unknownOpcode s

/-- A word of opcode 0xD (R102, R126), whatever its other bits. -/
def execUnknownD (_rest : BitVec 12) (s : State) : Result := unknownOpcode s

end Sys2Proof.Machine
end

