-- ==== Sys2Proof/Machine/Cycle.lean ====
section
/-! DEFINITION. The engine's cycle (40_fetch_dispatch.md): the fetch, the zero-word stop, the pc advance
and the dispatch, in the order of R127 and R260. -/

namespace Sys2Proof.Machine

/-- The fetch (R122): the word at the pc, a read that is always in bounds (R57). -/
def fetch (s : State) : Word := s.mem.read s.pc

/-- The pc advance (R123): the state with the incremented pc, or nothing where `pc + 1` has no 16-bit
value. -/
def advance (s : State) : Option State :=
  if s.pc = 0xFFFF#16 then none else some (s.setPc (s.pc + 1#16))

/-- One step (R127). A step requested in Halted changes nothing (R121). -/
def cycle (s : State) : Result :=
  if s.run then
    if fetch s = 0x0000#16 then exec .stop0 s
    else
      match advance s with
      | none => raiseOutOfBounds s
      | some s' => exec (decode (fetch s)) s'
  else .next s

/-- The state with an instruction word placed where the next step fetches it. -/
def placeWord (s : State) (ir : Word) : State := s.setMem s.pc ir

end Sys2Proof.Machine
end

