-- ==== Sys2Proof/Machine/Step.lean ====
section
/-! DEFINITION. The step of the machine, and the state with a given instruction placed for the next
step. Both only call Machine/Cycle.lean. -/

namespace Sys2Proof.Machine

/-- One step: one instruction or one stop (R127). -/
def step (s : State) : Host.Outcome State Fault Refusal := cycle s

/-- `s` with the table's word stored at the pc, where `step` fetches (R122); nothing else changes. The
next step runs it when `s` is Ready and its pc is not 0xFFFF, as `State.reset` is. -/
def State.withFetchWord (s : State) (nbits w : Nat) : State :=
  placeWord s (BitVec.ofNat 16 (w % 2 ^ nbits))

end Sys2Proof.Machine
end

