-- ==== Sys2Proof/Laws/Decode.lean ====
section
/-! SUPPORT. The small lemmas of the decoder and the encoder: register numbers round trip, each field of
a word built by a format of R89 to R98 is the part it was built from, the number such a word stands
for, and what the decoder answers for each opcode. -/

namespace Sys2Proof

@[simp] theorem Reg.ofBits_bits (r : Reg) : Reg.ofBits r.bits = r := by cases r <;> rfl

@[simp] theorem Reg.bits_ofBits (b : BitVec 3) : (Reg.ofBits b).bits = b := by
  revert b
  decide

/-! ## Parts of an appended vector -/

theorem extractLsb'_append_low {m n : Nat} (a : BitVec m) (b : BitVec n) :
    (a ++ b).extractLsb' 0 n = b := by
  ext k hk
  simp [BitVec.getLsbD_append, hk, BitVec.getLsbD_eq_getElem]

theorem extractLsb'_append_high {m n : Nat} (a : BitVec m) (b : BitVec n) :
    (a ++ b).extractLsb' n m = a := by
  ext k hk
  simp [BitVec.getLsbD_append, hk, BitVec.getLsbD_eq_getElem]

theorem toNat_append_add {m n : Nat} (a : BitVec m) (b : BitVec n) :
    (a ++ b).toNat = a.toNat * 2 ^ n + b.toNat := by
  rw [BitVec.toNat_append, ← Nat.shiftLeft_add_eq_or_of_lt b.isLt, Nat.shiftLeft_eq]

/-- A word is its opcode followed by its other twelve bits. -/
theorem word_eq_append (w : Word) : w = Field.opcode w ++ Field.rest w := by
  apply BitVec.eq_of_getLsbD_eq
  intro k hk
  rw [BitVec.getLsbD_append]
  by_cases h : k < 12
  · simp [Field.rest, h]
  · have : k - 12 < 4 := by omega
    have : 12 + (k - 12) = k := by omega
    simp_all [Field.opcode]

theorem field_of_word (a : BitVec 4) (b : BitVec 12) {k m : Nat} (h : k + m ≤ 12) :
    (a ++ b : Word).extractLsb' k m = b.extractLsb' k m :=
  BitVec.extractLsb'_append_eq_of_add_le h

theorem bit_of_word (a : BitVec 4) (b : BitVec 12) {k : Nat} (h : k < 12) :
    (a ++ b : Word)[k] = b[k] := by
  have hb : (a ++ b).getLsbD k = b.getLsbD k := BitVec.getLsbD_append.trans (if_pos h)
  simpa [h, show k < 16 by omega] using hb

section
variable (a b e d : BitVec 3) (u v w : BitVec 1) (o5 : BitVec 5) (o6 : BitVec 6) (o8 : BitVec 8)
  (o9 : BitVec 9) (o11 : BitVec 11) (f4 : BitVec 4)

/-! ## Format PC9 (R92) -/

@[simp] theorem pc9_reg : (a ++ o9 : BitVec 12).extractLsb' 9 3 = a := extractLsb'_append_high a o9
@[simp] theorem pc9_off : (a ++ o9 : BitVec 12).extractLsb' 0 9 = o9 := extractLsb'_append_low a o9
theorem pc9_toNat : (a ++ o9 : BitVec 12).toNat = a.toNat * 512 + o9.toNat := toNat_append_add a o9

/-! ## Formats of two registers and six more bits: BASE6, NOT, JMP, JSRR (R91, R93, R95, R97) -/

@[simp] theorem base6_regAt9 : (a ++ b ++ o6 : BitVec 12).extractLsb' 9 3 = a :=
  (BitVec.extractLsb'_append_eq_of_le (xhi := a ++ b) (xlo := o6) (by decide)).trans
    (extractLsb'_append_high a b)
@[simp] theorem base6_regAt6 : (a ++ b ++ o6 : BitVec 12).extractLsb' 6 3 = b :=
  (BitVec.extractLsb'_append_eq_of_le (xhi := a ++ b) (xlo := o6) (by decide)).trans
    (extractLsb'_append_low a b)
@[simp] theorem base6_off : (a ++ b ++ o6 : BitVec 12).extractLsb' 0 6 = o6 :=
  extractLsb'_append_low (a ++ b) o6
theorem base6_toNat :
    (a ++ b ++ o6 : BitVec 12).toNat = a.toNat * 512 + b.toNat * 64 + o6.toNat := by
  have h := toNat_append_add (a ++ b) o6
  rw [toNat_append_add a b] at h
  exact h.trans (by ring)

/-! ## Formats OPR and OPI (R89, R90) -/

@[simp] theorem opr_regAt9 : (a ++ b ++ e ++ d : BitVec 12).extractLsb' 9 3 = a :=
  (BitVec.extractLsb'_append_eq_of_le (xhi := a ++ b ++ e) (xlo := d) (by decide)).trans
    ((BitVec.extractLsb'_append_eq_of_le (xhi := a ++ b) (xlo := e) (by decide)).trans
      (extractLsb'_append_high a b))
@[simp] theorem opr_regAt6 : (a ++ b ++ e ++ d : BitVec 12).extractLsb' 6 3 = b :=
  (BitVec.extractLsb'_append_eq_of_le (xhi := a ++ b ++ e) (xlo := d) (by decide)).trans
    ((BitVec.extractLsb'_append_eq_of_le (xhi := a ++ b) (xlo := e) (by decide)).trans
      (extractLsb'_append_low a b))
@[simp] theorem opr_regAt0 : (a ++ b ++ e ++ d : BitVec 12).extractLsb' 0 3 = d :=
  extractLsb'_append_low (a ++ b ++ e) d
@[simp] theorem opr_mode5 : (a ++ b ++ e ++ d : BitVec 12)[5] = e[2] := by
  have h : (a ++ b ++ e ++ d).getLsbD 5 = e.getLsbD 2 :=
    (BitVec.getLsbD_append (x := a ++ b ++ e) (y := d) (i := 5)).trans
      (BitVec.getLsbD_append (x := a ++ b) (y := e) (i := 2))
  simpa using h
theorem opr_toNat : (a ++ b ++ e ++ d : BitVec 12).toNat =
    a.toNat * 512 + b.toNat * 64 + e.toNat * 8 + d.toNat := by
  have h := toNat_append_add (a ++ b ++ e) d
  rw [toNat_append_add (a ++ b) e, toNat_append_add a b] at h
  exact h.trans (by ring)

@[simp] theorem opi_regAt9 : (a ++ b ++ u ++ o5 : BitVec 12).extractLsb' 9 3 = a :=
  (BitVec.extractLsb'_append_eq_of_le (xhi := a ++ b ++ u) (xlo := o5) (by decide)).trans
    ((BitVec.extractLsb'_append_eq_of_le (xhi := a ++ b) (xlo := u) (by decide)).trans
      (extractLsb'_append_high a b))
@[simp] theorem opi_regAt6 : (a ++ b ++ u ++ o5 : BitVec 12).extractLsb' 6 3 = b :=
  (BitVec.extractLsb'_append_eq_of_le (xhi := a ++ b ++ u) (xlo := o5) (by decide)).trans
    ((BitVec.extractLsb'_append_eq_of_le (xhi := a ++ b) (xlo := u) (by decide)).trans
      (extractLsb'_append_low a b))
@[simp] theorem opi_imm5 : (a ++ b ++ u ++ o5 : BitVec 12).extractLsb' 0 5 = o5 :=
  extractLsb'_append_low (a ++ b ++ u) o5
@[simp] theorem opi_mode5 : (a ++ b ++ u ++ o5 : BitVec 12)[5] = u[0] := by
  have h : (a ++ b ++ u ++ o5).getLsbD 5 = u.getLsbD 0 :=
    (BitVec.getLsbD_append (x := a ++ b ++ u) (y := o5) (i := 5)).trans
      (BitVec.getLsbD_append (x := a ++ b) (y := u) (i := 0))
  simpa using h
theorem opi_toNat : (a ++ b ++ u ++ o5 : BitVec 12).toNat =
    a.toNat * 512 + b.toNat * 64 + u.toNat * 32 + o5.toNat := by
  have h := toNat_append_add (a ++ b ++ u) o5
  rw [toNat_append_add (a ++ b) u, toNat_append_add a b] at h
  exact h.trans (by ring)

/-! ## Format BR (R94) -/

@[simp] theorem br_off : (u ++ v ++ w ++ o9 : BitVec 12).extractLsb' 0 9 = o9 :=
  extractLsb'_append_low (u ++ v ++ w) o9
@[simp] theorem br_p : (u ++ v ++ w ++ o9 : BitVec 12)[9] = w[0] := by
  have h : (u ++ v ++ w ++ o9).getLsbD 9 = w.getLsbD 0 :=
    (BitVec.getLsbD_append (x := u ++ v ++ w) (y := o9) (i := 9)).trans
      (BitVec.getLsbD_append (x := u ++ v) (y := w) (i := 0))
  simpa using h
@[simp] theorem br_z : (u ++ v ++ w ++ o9 : BitVec 12)[10] = v[0] := by
  have h : (u ++ v ++ w ++ o9).getLsbD 10 = v.getLsbD 0 :=
    (BitVec.getLsbD_append (x := u ++ v ++ w) (y := o9) (i := 10)).trans
      ((BitVec.getLsbD_append (x := u ++ v) (y := w) (i := 1)).trans
        (BitVec.getLsbD_append (x := u) (y := v) (i := 0)))
  simpa using h
@[simp] theorem br_n : (u ++ v ++ w ++ o9 : BitVec 12)[11] = u[0] := by
  have h : (u ++ v ++ w ++ o9).getLsbD 11 = u.getLsbD 0 :=
    (BitVec.getLsbD_append (x := u ++ v ++ w) (y := o9) (i := 11)).trans
      ((BitVec.getLsbD_append (x := u ++ v) (y := w) (i := 2)).trans
        (BitVec.getLsbD_append (x := u) (y := v) (i := 1)))
  simpa using h
theorem br_toNat : (u ++ v ++ w ++ o9 : BitVec 12).toNat =
    u.toNat * 2048 + v.toNat * 1024 + w.toNat * 512 + o9.toNat := by
  have h := toNat_append_add (u ++ v ++ w) o9
  rw [toNat_append_add (u ++ v) w, toNat_append_add u v] at h
  exact h.trans (by ring)

/-! ## Formats JSR and TRAP (R96, R98) -/

@[simp] theorem jsr_off : (u ++ o11 : BitVec 12).extractLsb' 0 11 = o11 :=
  extractLsb'_append_low u o11
@[simp] theorem jsr_mode11 : (u ++ o11 : BitVec 12)[11] = u[0] := by
  have h : (u ++ o11).getLsbD 11 = u.getLsbD 0 :=
    BitVec.getLsbD_append (x := u) (y := o11) (i := 11)
  simpa using h
theorem jsr_toNat : (u ++ o11 : BitVec 12).toNat = u.toNat * 2048 + o11.toNat :=
  toNat_append_add u o11

@[simp] theorem jsrr_mode11 : (a ++ b ++ o6 : BitVec 12)[11] = a[2] := by
  have h : (a ++ b ++ o6).getLsbD 11 = a.getLsbD 2 :=
    (BitVec.getLsbD_append (x := a ++ b) (y := o6) (i := 11)).trans
      (BitVec.getLsbD_append (x := a) (y := b) (i := 5))
  simpa using h

@[simp] theorem trap_vect : (f4 ++ o8 : BitVec 12).extractLsb' 0 8 = o8 :=
  extractLsb'_append_low f4 o8
theorem trap_toNat : (f4 ++ o8 : BitVec 12).toNat = f4.toNat * 256 + o8.toNat :=
  toNat_append_add f4 o8

end

/-! ## The encoder -/

/-- The encoder puts the opcode in the top four bits. -/
theorem opcode_encode (i : Instr) : Field.opcode (encode i) = i.opcode :=
  extractLsb'_append_high i.opcode i.operandBits

theorem rest_encode (i : Instr) : Field.rest (encode i) = i.operandBits :=
  extractLsb'_append_low i.opcode i.operandBits

theorem encode_toNat (i : Instr) :
    (encode i).toNat = i.opcode.toNat * 4096 + i.operandBits.toNat :=
  toNat_append_add i.opcode i.operandBits

/-! ## The decoder -/

/-- The decoder never gives the stop word: the engine's test finds it before (R107). -/
theorem decode_ne_stop0 (w : Word) : decode w ≠ .stop0 := by
  intro h
  unfold decode at h
  split at h
  all_goals first | (split at h <;> cases h) | cases h

@[simp] theorem decodeWord_zero : decodeWord 0x0000#16 = .stop0 := rfl

theorem decodeWord_of_ne {w : Word} (h : w ≠ 0x0000#16) : decodeWord w = decode w := if_neg h

theorem decodeWord_eq_stop0_iff (w : Word) : decodeWord w = .stop0 ↔ w = 0x0000#16 := by
  refine ⟨fun h => ?_, by rintro rfl; rfl⟩
  by_contra hw
  rw [decodeWord_of_ne hw] at h
  exact decode_ne_stop0 w h

end Sys2Proof
end

