-- ==== Sys2Proof/Laws/PerInstr.lean ====
section
/-! SUPPORT. The statements made per instruction. `OpcodeField`: the top four bits of an instruction's
word are the opcode the table of R99 gives it. -/

namespace Sys2Proof.Laws.OpcodeField

/-- Bits 15 to 12 of the word of an instruction are its opcode by the table of R99. -/
def Statement (i : Instr) : Prop :=
  (encode i).extractLsb' 12 4 =
    match i with
    | .stop0 | .br .. => 0b0000#4
    | .addReg .. | .addImm .. => 0b0001#4
    | .ld .. => 0b0010#4
    | .st .. => 0b0011#4
    | .jsr .. | .jsrr .. => 0b0100#4
    | .andReg .. | .andImm .. => 0b0101#4
    | .ldr .. => 0b0110#4
    | .str .. => 0b0111#4
    | .unknown8 .. => 0b1000#4
    | .not .. => 0b1001#4
    | .ldi .. => 0b1010#4
    | .sti .. => 0b1011#4
    | .ret | .jmp .. => 0b1100#4
    | .unknownD .. => 0b1101#4
    | .lea .. => 0b1110#4
    | .halt | .trap .. => 0b1111#4

theorem stop0 : Statement .stop0 := opcode_encode _
theorem br (n z p : Bool) (off : BitVec 9) : Statement (.br n z p off) := opcode_encode _
theorem addReg (dr sr1 sr2 : Reg) : Statement (.addReg dr sr1 sr2) := opcode_encode _
theorem addImm (dr sr1 : Reg) (imm5 : BitVec 5) : Statement (.addImm dr sr1 imm5) := opcode_encode _
theorem ld (dr : Reg) (off : BitVec 9) : Statement (.ld dr off) := opcode_encode _
theorem st (sr : Reg) (off : BitVec 9) : Statement (.st sr off) := opcode_encode _
theorem jsr (off : BitVec 11) : Statement (.jsr off) := opcode_encode _
theorem jsrr (baseR : Reg) : Statement (.jsrr baseR) := opcode_encode _
theorem andReg (dr sr1 sr2 : Reg) : Statement (.andReg dr sr1 sr2) := opcode_encode _
theorem andImm (dr sr1 : Reg) (imm5 : BitVec 5) : Statement (.andImm dr sr1 imm5) := opcode_encode _
theorem ldr (dr baseR : Reg) (off : BitVec 6) : Statement (.ldr dr baseR off) := opcode_encode _
theorem str (sr baseR : Reg) (off : BitVec 6) : Statement (.str sr baseR off) := opcode_encode _
theorem unknown8 (rest : BitVec 12) : Statement (.unknown8 rest) := opcode_encode _
theorem not (dr sr : Reg) : Statement (.not dr sr) := opcode_encode _
theorem ldi (dr : Reg) (off : BitVec 9) : Statement (.ldi dr off) := opcode_encode _
theorem sti (sr : Reg) (off : BitVec 9) : Statement (.sti sr off) := opcode_encode _
theorem ret : Statement .ret := opcode_encode _
theorem jmp (baseR : Reg) : Statement (.jmp baseR) := opcode_encode _
theorem unknownD (rest : BitVec 12) : Statement (.unknownD rest) := opcode_encode _
theorem lea (dr : Reg) (off : BitVec 9) : Statement (.lea dr off) := opcode_encode _
theorem halt : Statement .halt := opcode_encode _
theorem trap (v : BitVec 8) : Statement (.trap v) := opcode_encode _

end Sys2Proof.Laws.OpcodeField
end

