-- ==== Sys2Proof/Machine/Report.lean ====
section
/-! DEFINITION. What a step reports (R128) and the optional trace event (R340). Both are functions of
the state before the step and no part of the state (R35). -/

namespace Sys2Proof.Machine

/-- The report of a step (R128). -/
inductive Report where
  /-- The instruction executed and the run goes on. -/
  | executed (i : Instr)
  /-- HALT ended the run. -/
  | halt
  /-- The zero word ended the run. -/
  | zeroWord
  /-- An unknown opcode ended the run, with the instruction word (R126). -/
  | unknownOpcode (ir : Word)
  /-- A computed address or pc value ended the run, with its exact value (R255). -/
  | outOfBounds (address : Int)
  /-- The step was requested in Halted (R121). -/
  | halted (stop : StopCause)
deriving DecidableEq, Repr

/-- The stop cause a report stands for, `none` when the run goes on. -/
def Report.cause : Report → StopCause
  | .executed _ => .none
  | .halt => .halt
  | .zeroWord => .zeroWord
  | .unknownOpcode _ => .unknownOpcode
  | .outOfBounds _ => .outOfBounds
  | .halted stop => stop

/-- The mnemonic of an instruction, with the names of the assembler syntax (R111); the words that end
the run without a handler go by the names of the trace event (R340). -/
def mnemonic : Instr → String
  | .stop0 => "ZeroWord"
  | .br .. => "BR"
  | .addReg .. | .addImm .. => "ADD"
  | .ld .. => "LD"
  | .st .. => "ST"
  | .jsr .. => "JSR"
  | .jsrr .. => "JSRR"
  | .andReg .. | .andImm .. => "AND"
  | .ldr .. => "LDR"
  | .str .. => "STR"
  | .not .. => "NOT"
  | .ldi .. => "LDI"
  | .sti .. => "STI"
  | .ret => "RET"
  | .jmp .. => "JMP"
  | .lea .. => "LEA"
  | .halt => "HALT"
  | .trap .. => "TRAP"
  | .unknown8 .. | .unknownD .. => "Unknown"

/-- The computed value an instruction's handler range-checks, in the state its handler is given: the
table of R255. A branch not taken and every instruction the table leaves out check none. -/
def checkedValue (i : Instr) (s : State) : Option Int :=
  match i with
  | .ld _ off | .ldi _ off | .st _ off | .sti _ off => some (pcRel9 s off)
  | .ldr _ baseR off | .str _ baseR off => some (baseOff6 s baseR off)
  | .br n z p off => if branchTaken n z p s.cc then some (pcRel9 s off) else none
  | .jsr off => some (pcRel11 s off)
  | .stop0 | .addReg .. | .addImm .. | .jsrr .. | .andReg .. | .andImm .. | .unknown8 .. | .not ..
  | .ret | .jmp .. | .unknownD .. | .lea .. | .halt | .trap .. => none

/-- The value out of range that the handler raises with, if it raises. -/
def raisedValue (i : Instr) (s : State) : Option Int :=
  match checkedValue i s with
  | some v => if InRange v then none else some v
  | none => none

/-- The report of an instruction whose handler was given the state `s` (R128). -/
def handlerReport (i : Instr) (s : State) : Report :=
  match raisedValue i s with
  | some v => .outOfBounds v
  | none =>
    match i with
    | .stop0 => .zeroWord
    | .unknown8 _ | .unknownD _ => .unknownOpcode (encode i)
    | .halt => .halt
    | .trap v => if v = Config.haltVector then .halt else .executed i
    | .br .. | .addReg .. | .addImm .. | .ld .. | .st .. | .jsr .. | .jsrr .. | .andReg ..
    | .andImm .. | .ldr .. | .str .. | .not .. | .ldi .. | .sti .. | .ret | .jmp .. | .lea .. =>
      .executed i

/-- The report of the next step, in the order of R127. -/
def stepReport (s : State) : Report :=
  if s.run then
    if fetch s = 0x0000#16 then .zeroWord
    else
      match advance s with
      | none => .outOfBounds ((s.pc.toNat : Int) + 1)
      | some s' => handlerReport (decode (fetch s)) s'
  else .halted s.stop

/-- The state after a step (R127). A step of this model always answers a next state; the other two
outcomes keep the state. -/
def stepState (s : State) : State :=
  match step s with
  | .next s' => s'
  | .fault _ | .refused _ => s

/-- The "should continue" signal of a step: the run flag after it (R128). -/
def shouldContinue (s : State) : Bool := (stepState s).run

/-- The effective addresses of an instruction, in the state its handler is given, in the order they
arise (R340); those the step never reaches because it raised are left out. LEA shows the value it
stores, and a taken BR, JMP, RET, JSR, JSRR, TRAP and HALT their target. -/
def effectiveAddresses (i : Instr) (s : State) : List Int :=
  match i with
  | .ld _ off | .st _ off => [pcRel9 s off]
  | .ldr _ baseR off | .str _ baseR off => [baseOff6 s baseR off]
  | .ldi _ off | .sti _ off =>
    match memRead s (pcRel9 s off) with
    | some p => [pcRel9 s off, (p.toNat : Int)]
    | none => [pcRel9 s off]
  | .lea _ off => [((trunc16 (pcRel9 s off)).toNat : Int)]
  | .br n z p off => if branchTaken n z p s.cc then [pcRel9 s off] else []
  | .jsr off => [pcRel11 s off]
  | .jsrr baseR => [(((s.wr .r7 s.pc).rd baseR).toNat : Int)]
  | .jmp baseR => [((s.rd baseR).toNat : Int)]
  | .ret => [((s.rd .r7).toNat : Int)]
  | .trap v => [((vectorAddress v).toNat : Int)]
  | .halt => [((vectorAddress Config.haltVector).toNat : Int)]
  | .stop0 | .addReg .. | .addImm .. | .andReg .. | .andImm .. | .not .. | .unknown8 ..
  | .unknownD .. => []

/-- The general register an instruction writes when it completes (R22). -/
def destination : Instr → Option Reg
  | .addReg dr .. | .addImm dr .. | .andReg dr .. | .andImm dr .. | .not dr .. | .ld dr ..
  | .ldi dr .. | .ldr dr .. | .lea dr .. => some dr
  | .jsr .. | .jsrr .. => some .r7
  | .stop0 | .br .. | .st .. | .str .. | .sti .. | .ret | .jmp .. | .unknown8 .. | .unknownD ..
  | .halt | .trap .. => none

/-- The register whose value a store writes to memory (R180). -/
def storeSource : Instr → Option Reg
  | .st sr .. | .str sr .. | .sti sr .. => some sr
  | .stop0 | .br .. | .addReg .. | .addImm .. | .ld .. | .jsr .. | .jsrr .. | .andReg ..
  | .andImm .. | .ldr .. | .unknown8 .. | .not .. | .ldi .. | .ret | .jmp .. | .unknownD ..
  | .lea .. | .halt | .trap .. => none

/-- The structured event of one step (R340). -/
structure TraceEvent where
  /-- The fetch address. -/
  address : Word
  /-- The instruction word. -/
  ir : Word
  /-- The decoded instruction; the zero word and unknown words are instructions of their own. -/
  instr : Instr
  /-- The effective address, or both of LDI and STI. -/
  effective : List Int
  /-- The value written to a register or to memory, if any. -/
  written : Option Word
  /-- The condition code after the step. -/
  ccAfter : CC
  /-- The step's report. -/
  report : Report
deriving DecidableEq, Repr

/-- The value the handler of `i`, given the state `s`, writes to its destination register or to memory;
`after` is the state the step ends in. -/
def writtenValue (i : Instr) (s after : State) : Option Word :=
  match raisedValue i s with
  | some _ => none
  | none =>
    match destination i with
    | some r => some (after.rd r)
    | none => (storeSource i).map s.rd

/-- The trace event of the next step (R340): none in Halted, where no step happens (R121). A step that
ends before its handler, by the zero word or by the pc advance, reaches no address and writes
nothing. -/
def traceEvent (s : State) : Option TraceEvent :=
  if s.run then
    let ir := fetch s
    let after := stepState s
    let event (effective : List Int) (written : Option Word) : TraceEvent :=
      { address := s.pc, ir, instr := decodeWord ir, effective, written, ccAfter := after.cc,
        report := stepReport s }
    if ir = 0x0000#16 then some (event [] none)
    else
      match advance s with
      | none => some (event [] none)
      | some s' => some (event (effectiveAddresses (decode ir) s') (writtenValue (decode ir) s' after))
  else none

end Sys2Proof.Machine
end

