-- ==== Sys2Proof/Machine/Interface.lean ====
section
/-! DEFINITION. What the host can do to the machine (80_interfaces.md, R321): reset, load, step, run,
the reads, the patches and the stop request, each between two steps (R322). A `Session` is the machine
with the one bit the load rule needs beside the state of R36: whether a step has been made since reset
(R296). -/

namespace Sys2Proof.Machine

/-! ## Reset and load -/

/-- The words of an image in consecutive addresses from `a` upward (R293). -/
def Memory.place : Memory → Nat → List Word → Memory
  | m, _, [] => m
  | m, a, w :: image => Memory.place (m.put a w) (a + 1) image

/-- `load(START, IMAGE)` (R293): the image into memory and the pc to the start, or nothing where the
image runs past the top of memory and is refused whole (R294). -/
def load (s : State) (start : Word) (image : List Word) : Option State :=
  if start.toNat + image.length ≤ Config.memWords then
    some { s with mem := s.mem.place start.toNat image, pc := start }
  else none

/-- The state after reset and one load (R37). -/
def loaded (start : Word) (image : List Word) : Option State := load State.reset start image

/-! ## Running -/

/-- `run` under fuel (R129): steps while the run flag is true. The run flag of the result is still true
exactly when the fuel ran out first. -/
def runToCompletion : Nat → State → State
  | 0, s => s
  | fuel + 1, s => if s.run then runToCompletion fuel (stepState s) else s

/-- The reports of the steps that `runToCompletion` makes, in order (R128, R330): the last one is that of
the step that ended the run, with its word or value (R250), where the run ended within the fuel. -/
def runReports : Nat → State → List Report
  | 0, _ => []
  | fuel + 1, s => if s.run then stepReport s :: runReports fuel (stepState s) else []

/-! ## Status and inspection -/

/-- The code of a stop cause on the status interface (R251). Codes 6 and 7 are never produced. -/
def StopCause.code : StopCause → BitVec 3
  | .none => 0
  | .halt => 1
  | .zeroWord => 2
  | .unknownOpcode => 3
  | .outOfBounds => 4
  | .operatorStop => 5

/-- The register dump (R331): `x[0]` to `x[7]`, the pc and the condition code at one instant. -/
structure RegDump where
  x : Regs
  pc : Word
  cc : CC
deriving DecidableEq, Repr

/-- The register dump of a state (R331). -/
def regDump (s : State) : RegDump := { x := s.x, pc := s.pc, cc := s.cc }

/-- The addresses of a memory dump: `a - 4` to `a + 4`, clipped to the memory (R334). -/
def dumpWindow (a : Word) : List Nat :=
  let low := a.toNat - Config.dumpRadius
  let high := min (a.toNat + Config.dumpRadius) (Config.memWords - 1)
  List.range' low (high + 1 - low)

/-- `dump_mem(a)` (R334): the words of the window. -/
def dumpMem (s : State) (a : Word) : List Word := (dumpWindow a).map fun k => s.mem.get k

/-! ## Patches and the stop request -/

/-- `write_reg(i, v)` (R332): nothing but the register changes. -/
def patchReg (s : State) (r : Reg) (v : Word) : State := s.wr r v

/-- `write_mem(a, v)` (R332): nothing but the memory word changes. -/
def patchMem (s : State) (a v : Word) : State := s.setMem a v

/-- `stop_request` (R336): in Halted it changes nothing and the earlier cause stays. -/
def stopRequest (s : State) : State := if s.run then s.stopWith .operatorStop else s

/-! ## The operations as one relation -/

/-- The operations of R321. Every address and value is a `u16` by its type (R335). `run` carries the
fuel the model runs it under (R129). -/
inductive HostOp where
  | reset
  | load (start : Word) (image : List Word)
  | step
  | run (fuel : Nat)
  | readReg (r : Reg)
  | readPc
  | readCc
  | readRun
  | readStop
  | readMem (a : Word)
  | dumpRegs
  | dumpMem (a : Word)
  | writeReg (r : Reg) (v : Word)
  | writeMem (a v : Word)
  | stopRequest
deriving DecidableEq, Repr

/-- What the host is told. -/
inductive Reply where
  /-- The operation took place, or, for a stop request in Halted, changed nothing. The spec gives these
  operations no answer. DESIGN CHOICE, safe (log entry 13). -/
  | done
  /-- The load was refused and nothing changed (R294, R296). -/
  | loadRefused
  /-- The step's report and its "should continue" signal (R128). -/
  | stepped (report : Report) (goOn : Bool)
  /-- The answer of `run`: the reports of its steps, in order, and the run flag after the last. The spec
  gives `run` no answer of its own. DESIGN CHOICE, safe (log entry 13): each step of it returns its report
  (R128, R330), and nothing of them is dropped. -/
  | ran (reports : List Report) (stillRunning : Bool)
  | word (w : Word)
  | condition (c : CC)
  | runFlag (b : Bool)
  | stopCode (c : StopCause) (code : BitVec 3)
  | regs (d : RegDump)
  | words (ws : List Word)
deriving DecidableEq, Repr

/-- The machine as the host holds it. -/
structure Session where
  /-- The architectural state. -/
  machine : State
  /-- A step has been made since reset, after which a load is refused (R296). -/
  stepped : Bool
deriving DecidableEq, Repr

/-- The session right after reset (R291). -/
def Session.created : Session := { machine := State.reset, stepped := false }

/-- One host operation (R321): the session after it, and what the host is told. What `run`, reset, an
accepted load, a patch and a stop request tell is the model's choice (log entry 13). -/
def Session.apply (b : Session) (op : HostOp) : Session × Reply :=
  let s := b.machine
  match op with
  | .reset => (Session.created, .done)
  | .load start image =>
    if s.run && !b.stepped then
      match Sys2Proof.Machine.load s start image with
      | some s' => ({ b with machine := s' }, .done)
      | none => (b, .loadRefused)
    else (b, .loadRefused)
  | .step =>
    ({ machine := stepState s, stepped := b.stepped || s.run },
      .stepped (stepReport s) (shouldContinue s))
  | .run fuel =>
    ({ machine := runToCompletion fuel s, stepped := b.stepped || (s.run && decide (fuel ≠ 0)) },
      .ran (runReports fuel s) (runToCompletion fuel s).run)
  | .readReg r => (b, .word (s.rd r))
  | .readPc => (b, .word s.pc)
  | .readCc => (b, .condition s.cc)
  | .readRun => (b, .runFlag s.run)
  | .readStop => (b, .stopCode s.stop s.stop.code)
  | .readMem a => (b, .word (s.mem.read a))
  | .dumpRegs => (b, .regs (regDump s))
  | .dumpMem a => (b, .words (Sys2Proof.Machine.dumpMem s a))
  | .writeReg r v => ({ b with machine := patchReg s r v }, .done)
  | .writeMem a v => ({ b with machine := patchMem s a v }, .done)
  | .stopRequest => ({ b with machine := Sys2Proof.Machine.stopRequest s }, .done)

end Sys2Proof.Machine
end

