-- ==== Sys2Proof/Safety.lean ====
section
/-! DEFINITION. What counts as a sound state and as a good or a bad end of a run (R33, R36, R252,
R264). -/

namespace Sys2Proof.Machine

/-- The invariant of the machine: memory in canonical form, and the run flag true exactly when no stop
cause is recorded (R33, R36). -/
def State.Inv (s : State) : Prop := s.mem.wf = true ∧ (s.run = true ↔ s.stop = .none)

/-- The run ended with HALT, its architected end. R252 leaves it to the modeller whether a run that ends
with ZeroWord counts as finished too. DESIGN CHOICE, safe (log entry 12): it does not, the choice R252
calls conservative. -/
def State.finished (s : State) : Prop := s.run = false ∧ s.stop = .halt

/-- The run ended with an error: the sticky fault of R264. -/
def State.faulted (s : State) : Prop :=
  s.run = false ∧ (s.stop = .unknownOpcode ∨ s.stop = .outOfBounds)

end Sys2Proof.Machine
end

