-- ==== Sys2Proof/Certificates/Slice0/Obligations.lean ====
section
/-! DEFINITION. The statements for the provers, from the spec's numbered rules. Helper predicates come
first; a statement spells out an address or a result in the rule's own arithmetic wherever that is not
an operation the statement is about. -/

namespace Sys2Proof.Claims

open Sys2Proof.Machine

/-- Every general register holds what it held. -/
def SameRegs (s t : State) : Prop := ∀ q, t.rd q = s.rd q

/-- Every general register but `r` holds what it held. -/
def SameRegsBut (r : Reg) (s t : State) : Prop := ∀ q, q ≠ r → t.rd q = s.rd q

/-- Every memory word reads as it read. -/
def SameMem (s t : State) : Prop := ∀ a : Word, t.mem.read a = s.mem.read a

/-- The run flag and the stop cause are what they were. -/
def SameRun (s t : State) : Prop := t.run = s.run ∧ t.stop = s.stop

/-- The whole change a register-writing data instruction makes: `v` in `dr`, the condition code from
`v`, and nothing else. -/
def ResultIn (dr : Reg) (v : Word) (s t : State) : Prop :=
  t.rd dr = v ∧ SameRegsBut dr s t ∧ t.cc = ccOf v ∧ t.pc = s.pc ∧ SameRun s t ∧ SameMem s t

/-- The whole change a store makes: `v` at the address `a`, and nothing else. -/
def StoredAt (a v : Word) (s t : State) : Prop :=
  t.mem.read a = v ∧ (∀ b : Word, b ≠ a → t.mem.read b = s.mem.read b) ∧
    SameRegs s t ∧ t.cc = s.cc ∧ t.pc = s.pc ∧ SameRun s t

/-- The exact value lies outside 0 to 65,535. -/
def OutOfRange (v : Int) : Prop := v < 0 ∨ 65535 < v

/-- The condition bits of a BR match the condition code (R203). -/
def Taken (n z p : Bool) (cc : CC) : Prop :=
  (n = true ∧ cc = .n) ∨ (z = true ∧ cc = .z) ∨ (p = true ∧ cc = .p)

/-- The table of R255, for the handlers: the exact value each range-checks, `s.pc` being the
incremented pc. -/
def RangeChecks (i : Instr) (s : State) (v : Int) : Prop :=
  match i with
  | .ld _ off | .ldi _ off | .st _ off | .sti _ off => v = (s.pc.toNat : Int) + off.toInt
  | .ldr _ baseR off | .str _ baseR off => v = ((s.rd baseR).toNat : Int) + off.toInt
  | .br n z p off => Taken n z p s.cc ∧ v = (s.pc.toNat : Int) + off.toInt
  | .jsr off => v = (s.pc.toNat : Int) + off.toInt
  | _ => False

/-- The value a step that fetches at `s.pc` raises OutOfBounds with, by the whole table of R255. -/
def Raises (s : State) (v : Int) : Prop :=
  s.mem.read s.pc ≠ 0x0000#16 ∧
    ((s.pc = 0xFFFF#16 ∧ v = 65536) ∨
      (s.pc ≠ 0xFFFF#16 ∧ OutOfRange v ∧
        RangeChecks (decode (s.mem.read s.pc)) { s with pc := s.pc + 1#16 } v))

/-- The seven instructions that write the condition code, with their destination register (R28). -/
def SetsCc : Instr → Option Reg
  | .addReg dr .. | .addImm dr .. | .andReg dr .. | .andImm dr .. | .not dr .. | .ld dr ..
  | .ldr dr .. | .lea dr .. | .ldi dr .. => some dr
  | _ => none

/-- The register an instruction writes (R22). -/
def WritesReg (i : Instr) (r : Reg) : Prop :=
  SetsCc i = some r ∨ (r = .r7 ∧ ((∃ off, i = .jsr off) ∨ ∃ baseR, i = .jsrr baseR))

/-- The address a store writes to, in the state its handler is given (R182, R186, R190). -/
def StoresTo (i : Instr) (s : State) (a : Word) : Prop :=
  match i with
  | .st _ off => (a.toNat : Int) = pcRel9 s off
  | .str _ baseR off => (a.toNat : Int) = baseOff6 s baseR off
  | .sti _ off => ∃ p : Word, (p.toNat : Int) = pcRel9 s off ∧ a = s.mem.read p
  | _ => False

/-- The bits of an instruction's word that no field uses (R100). -/
def unusedMask : Instr → Word
  | .addReg .. | .andReg .. => 0x0018#16
  | .not .. => 0x003F#16
  | .jmp .. | .ret => 0x0E3F#16
  | .jsrr .. => 0x063F#16
  | .trap .. | .halt => 0x0F00#16
  | _ => 0x0000#16

/-- What the assembler writes in the unused bits (R100, R108). -/
def unusedFill : Instr → Word
  | .not .. => 0x003F#16
  | _ => 0x0000#16

end Sys2Proof.Claims

open Sys2Proof Sys2Proof.Machine Sys2Proof.Claims

/-! ## Encoding -/

/-- R108, "decode(encode(i)) = i for every instruction i in the table", which the spec marks as
derived: no bit of an encoding is dropped. The decoder gives every instruction but the stop word,
which the engine's test finds before it (R107). Which terms are well-formed is the model's (log entry
9). -/
def Obligations.DecodeOfEncodeIsTheInstruction : Prop :=
  ∀ i : Instr, i.wf = true →
    decodeWord (encode i) = i ∧ (i ≠ .stop0 → decode (encode i) = i)

/-- R105, "every one of the 65,536 words has exactly one meaning", which the spec marks as derived:
the meaning is that of a well-formed instruction (the model's notion, log entry 9) whose own word
means the same. -/
def Obligations.EveryWordIsAWellFormedInstruction : Prop :=
  ∀ w : Word, (decodeWord w).wf = true ∧ decodeWord (encode (decodeWord w)) = decodeWord w

/-- R108, "encode(decode(w)) = w only for words whose unused bits have the assembler's values", which
the spec marks as derived: for exactly those words. -/
def Obligations.EncodeOfDecodeOnCanonicalWords : Prop :=
  ∀ w : Word, encode (decode w) = w ↔ w &&& unusedMask (decode w) = unusedFill (decode w)

/-- R100 (with its decision D6): changing unused bits changes nothing, and the encoder writes 0 in
them, but 1 in those of NOT. -/
def Obligations.UnusedBitsAreIgnored : Prop :=
  (∀ w m : Word, m &&& unusedMask (decode w) = m → decode (w ^^^ m) = decode w) ∧
    ∀ i : Instr, encode i &&& unusedMask i = unusedFill i

/-- From R101: the zero word alone is the stop word (its constructor is the model's, log entry 9);
every other word of opcode 0x0 is a BR. -/
def Obligations.OnlyTheZeroWordIsTheStopWord : Prop :=
  (∀ w : Word, decodeWord w = .stop0 ↔ w = 0x0000#16) ∧
    ∀ w : Word, w.extractLsb' 12 4 = 0x0#4 → w ≠ 0x0000#16 →
      ∃ n z p off, decodeWord w = .br n z p off

/-- From R107: given the zero word the decoder yields a BR with no condition bit and offset 0, which
is harmless; it never gives the stop word (a constructor of the model, log entry 9), and on every
other word it is what the word stands for. -/
def Obligations.DecoderGivesTheZeroWordAHarmlessBr : Prop :=
  decode 0x0000#16 = .br false false false 0#9 ∧
    (∀ s : State, exec (decode 0x0000#16) s = .next s) ∧ (∀ w : Word, decode w ≠ .stop0) ∧
    ∀ w : Word, w ≠ 0x0000#16 → decodeWord w = decode w

/-- Words of 95_test_vectors.md section 2.2 with the instructions they stand for. -/
def Obligations.VectorWordsDecode : Prop :=
  decode 0x14C4#16 = .addReg .r2 .r3 .r4 ∧ decode 0x101B#16 = .addReg .r0 .r0 .r3 ∧
    decode 0x5070#16 = .andImm .r0 .r1 0x10#5 ∧ decode 0x9000#16 = .not .r0 .r0 ∧
    decode 0x63BF#16 = .ldr .r1 .r6 0x3F#6 ∧ decode 0xE406#16 = .lea .r2 6#9 ∧
    decode 0xB006#16 = .sti .r0 6#9 ∧ decode 0x03FD#16 = .br false false true 0x1FD#9 ∧
    decode 0xCFFF#16 = .ret ∧ decode 0x46BF#16 = .jsrr .r2 ∧ decode 0x4C00#16 = .jsr 0x400#11 ∧
    decode 0xFF25#16 = .halt ∧ decode 0x8FFF#16 = .unknown8 0xFFF#12

/-- The opcode of every instruction stands in bits 15 to 12 of its word, by the table of R99. -/
def Obligations.OpcodeStandsInTheTopFourBits : Prop := ∀ i : Instr, Laws.OpcodeField.Statement i

/-! ## Numbers, flags and the memory primitives -/

/-- R8: the value of a sign-extended field, its range, and the source's example. -/
def Obligations.SignExtensionOfAField : Prop :=
  (∀ (n : Nat) (v : BitVec n), 0 < n →
    (v.getLsbD (n - 1) = true → sext v = (v.toNat : Int) - 2 ^ n) ∧
      (v.getLsbD (n - 1) = false → sext v = (v.toNat : Int)) ∧
      -(2 ^ (n - 1) : Int) ≤ sext v ∧ sext v ≤ 2 ^ (n - 1) - 1) ∧
    sext 0x11#5 = -15

/-- From the table of R160: the addressing modes add the two's complement reading of the offset to the
incremented pc or to the base register, as exact integers. -/
def Obligations.AddressingModesAreExactSums : Prop :=
  ∀ s : State,
    (∀ off, pcRel9 s off = (s.pc.toNat : Int) + off.toInt) ∧
      (∀ off, pcRel11 s off = (s.pc.toNat : Int) + off.toInt) ∧
      ∀ baseR off, baseOff6 s baseR off = ((s.rd baseR).toNat : Int) + off.toInt

/-- R29: the condition code from the stored value, by its unsigned ranges; nothing else changes. -/
def Obligations.ConditionCodeOfAStoredValue : Prop :=
  ∀ (s : State) (v : Word),
    (v.toNat = 0 → s.setcc v = { s with cc := .z }) ∧
      (0x8000 ≤ v.toNat → s.setcc v = { s with cc := .n }) ∧
      (0x0001 ≤ v.toNat → v.toNat ≤ 0x7FFF → s.setcc v = { s with cc := .p })

/-- R55: the read and write primitives raise exactly outside 0 to 65,535; a write is read back and
leaves every other word unchanged. -/
def Obligations.MemoryPrimitives : Prop :=
  ∀ (s : State) (v : Word),
    (∀ addr : Int, OutOfRange addr → memRead s addr = none ∧ memWrite s addr v = none) ∧
      ∀ a : Word, memRead s (a.toNat : Int) = some (s.mem.read a) ∧
        ∃ t, memWrite s (a.toNat : Int) v = some t ∧ StoredAt a v s t

/-! ## The step -/

/-- R121 (with its decision D16): a step requested in Halted does nothing and reports the stored stop
cause. -/
def Obligations.StepInHaltedDoesNothing : Prop :=
  ∀ s : State, s.run = false → step s = .next s ∧ stepReport s = .halted s.stop

/-- R122 (with its decision D4): the zero word stops the run with the pc unchanged, at every address,
0xFFFF included; the meaning of the zero word is that stop. -/
def Obligations.ZeroWordStopsTheRun : Prop :=
  (∀ s : State, s.run = true → s.mem.read s.pc = 0x0000#16 →
    step s = .next { s with run := false, stop := .zeroWord } ∧ stepReport s = .zeroWord) ∧
    ∀ s : State, exec .stop0 s = .next { s with run := false, stop := .zeroWord }

/-- R123 (with its decision D1): a word that is not the zero word stops the run at 0xFFFF, whatever
instruction it is; elsewhere the step is the decoded instruction run on the incremented pc. -/
def Obligations.StepRunsTheDecodedInstruction : Prop :=
  ∀ (s : State) (i : Instr), s.run = true → s.mem.read s.pc ≠ 0x0000#16 →
    decode (s.mem.read s.pc) = i →
    (s.pc ≠ 0xFFFF#16 → step s = exec i { s with pc := s.pc + 1#16 }) ∧
      (s.pc = 0xFFFF#16 → step s = .next { s with run := false, stop := .outOfBounds } ∧
        stepReport s = .outOfBounds 65536)

/-- R126: a word of opcode 0x8 or 0xD stops the run with the pc at the word after it and is reported;
the meaning of every such word is that stop. "Nothing else changes" is marked as derived in the spec.
-/
def Obligations.UnknownOpcodeStopsTheRun : Prop :=
  (∀ s : State, s.run = true → s.pc ≠ 0xFFFF#16 →
    ((s.mem.read s.pc).extractLsb' 12 4 = 0x8#4 ∨ (s.mem.read s.pc).extractLsb' 12 4 = 0xD#4) →
    step s = .next { s with pc := s.pc + 1#16, run := false, stop := .unknownOpcode } ∧
      stepReport s = .unknownOpcode (s.mem.read s.pc)) ∧
    ∀ (s : State) (rest : BitVec 12),
      exec (.unknown8 rest) s = .next { s with run := false, stop := .unknownOpcode } ∧
        exec (.unknownD rest) s = .next { s with run := false, stop := .unknownOpcode }

/-- "The step is a total, deterministic function of the state" (R127, marked as derived in the spec);
so is every instruction's handler. No state and no operand ends the machine without a next state,
since a stop is a state the engine goes to (log entry 4). -/
def Obligations.EveryStepAnswersANextState : Prop :=
  (∀ s : State, ∃ t, step s = .next t) ∧ ∀ (i : Instr) (s : State), ∃ t, exec i s = .next t

/-- In a Ready state with no stop cause, the report of R128 names the stop cause the step leaves, and
"should continue" is the run flag it leaves. The report is the model's function of the state before
the step (log entry 5). -/
def Obligations.ReportAgreesWithTheStateAfter : Prop :=
  ∀ s t : State, s.run = true → s.stop = .none → step s = .next t →
    (stepReport s).cause = t.stop ∧ shouldContinue s = t.run ∧
      (t.run = true ↔ ∃ i, stepReport s = .executed i)

/-! ## Operate instructions -/

/-- R142: ADD, register form: which words it is, its word, and its effect. -/
def Obligations.AddRegisterForm : Prop :=
  (∀ w : Word, w.extractLsb' 12 4 = 0x1#4 → w.getLsbD 5 = false →
    decode w = .addReg (.ofBits (w.extractLsb' 9 3)) (.ofBits (w.extractLsb' 6 3))
      (.ofBits (w.extractLsb' 0 3))) ∧
    (∀ dr sr1 sr2 : Reg, (encode (.addReg dr sr1 sr2)).toNat =
      0x1000 + dr.bits.toNat * 512 + sr1.bits.toNat * 64 + sr2.bits.toNat) ∧
    ∀ (dr sr1 sr2 : Reg) (s : State), ∃ t, exec (.addReg dr sr1 sr2) s = .next t ∧
      ResultIn dr (s.rd sr1 + s.rd sr2) s t

/-- R143: ADD, immediate form. -/
def Obligations.AddImmediateForm : Prop :=
  (∀ w : Word, w.extractLsb' 12 4 = 0x1#4 → w.getLsbD 5 = true →
    decode w = .addImm (.ofBits (w.extractLsb' 9 3)) (.ofBits (w.extractLsb' 6 3))
      (w.extractLsb' 0 5)) ∧
    (∀ (dr sr1 : Reg) (imm5 : BitVec 5), (encode (.addImm dr sr1 imm5)).toNat =
      0x1020 + dr.bits.toNat * 512 + sr1.bits.toNat * 64 + imm5.toNat) ∧
    ∀ (dr sr1 : Reg) (imm5 : BitVec 5) (s : State), ∃ t, exec (.addImm dr sr1 imm5) s = .next t ∧
      ResultIn dr (s.rd sr1 + imm5.signExtend 16) s t

/-- R146: AND, register form. -/
def Obligations.AndRegisterForm : Prop :=
  (∀ w : Word, w.extractLsb' 12 4 = 0x5#4 → w.getLsbD 5 = false →
    decode w = .andReg (.ofBits (w.extractLsb' 9 3)) (.ofBits (w.extractLsb' 6 3))
      (.ofBits (w.extractLsb' 0 3))) ∧
    (∀ dr sr1 sr2 : Reg, (encode (.andReg dr sr1 sr2)).toNat =
      0x5000 + dr.bits.toNat * 512 + sr1.bits.toNat * 64 + sr2.bits.toNat) ∧
    ∀ (dr sr1 sr2 : Reg) (s : State), ∃ t, exec (.andReg dr sr1 sr2) s = .next t ∧
      ResultIn dr (s.rd sr1 &&& s.rd sr2) s t

/-- R147: AND, immediate form; the immediate is sign-extended to 16 bits before the AND, and immediate
0 gives 0 and Z whatever the source holds. -/
def Obligations.AndImmediateForm : Prop :=
  (∀ w : Word, w.extractLsb' 12 4 = 0x5#4 → w.getLsbD 5 = true →
    decode w = .andImm (.ofBits (w.extractLsb' 9 3)) (.ofBits (w.extractLsb' 6 3))
      (w.extractLsb' 0 5)) ∧
    (∀ (dr sr1 : Reg) (imm5 : BitVec 5), (encode (.andImm dr sr1 imm5)).toNat =
      0x5020 + dr.bits.toNat * 512 + sr1.bits.toNat * 64 + imm5.toNat) ∧
    (∀ (dr sr1 : Reg) (imm5 : BitVec 5) (s : State), ∃ t, exec (.andImm dr sr1 imm5) s = .next t ∧
      ResultIn dr (s.rd sr1 &&& imm5.signExtend 16) s t) ∧
    ∀ (dr sr1 : Reg) (s : State), ∃ t, exec (.andImm dr sr1 0#5) s = .next t ∧
      t.rd dr = 0x0000#16 ∧ t.cc = .z

/-- R150: NOT; every one of the 16 bits is inverted. -/
def Obligations.NotComplements : Prop :=
  (∀ w : Word, w.extractLsb' 12 4 = 0x9#4 →
    decode w = .not (.ofBits (w.extractLsb' 9 3)) (.ofBits (w.extractLsb' 6 3))) ∧
    (∀ dr sr : Reg, (encode (.not dr sr)).toNat =
      0x903F + dr.bits.toNat * 512 + sr.bits.toNat * 64) ∧
    ∀ (dr sr : Reg) (s : State), ∃ t, exec (.not dr sr) s = .next t ∧
      ResultIn dr (0xFFFF#16 - s.rd sr) s t

/-! ## Loads -/

/-- R162 and R161: LD loads the word at the incremented pc plus the offset, or raises and writes
nothing. -/
def Obligations.LdLoadsPcRelative : Prop :=
  (∀ w : Word, w.extractLsb' 12 4 = 0x2#4 →
    decode w = .ld (.ofBits (w.extractLsb' 9 3)) (w.extractLsb' 0 9)) ∧
    (∀ (dr : Reg) (off : BitVec 9),
      (encode (.ld dr off)).toNat = 0x2000 + dr.bits.toNat * 512 + off.toNat) ∧
    ∀ (dr : Reg) (off : BitVec 9) (s : State),
      (∀ a : Word, (a.toNat : Int) = pcRel9 s off → ∃ t, exec (.ld dr off) s = .next t ∧
        ResultIn dr (s.mem.read a) s t) ∧
        (OutOfRange (pcRel9 s off) →
          exec (.ld dr off) s = .next { s with run := false, stop := .outOfBounds })

/-- R166 and R161: LDI loads through the pointer at the incremented pc plus the offset; only the read
of the pointer can raise. -/
def Obligations.LdiLoadsThroughAPointer : Prop :=
  (∀ w : Word, w.extractLsb' 12 4 = 0xA#4 →
    decode w = .ldi (.ofBits (w.extractLsb' 9 3)) (w.extractLsb' 0 9)) ∧
    (∀ (dr : Reg) (off : BitVec 9),
      (encode (.ldi dr off)).toNat = 0xA000 + dr.bits.toNat * 512 + off.toNat) ∧
    ∀ (dr : Reg) (off : BitVec 9) (s : State),
      (∀ a : Word, (a.toNat : Int) = pcRel9 s off → ∃ t, exec (.ldi dr off) s = .next t ∧
        ResultIn dr (s.mem.read (s.mem.read a)) s t) ∧
        (OutOfRange (pcRel9 s off) →
          exec (.ldi dr off) s = .next { s with run := false, stop := .outOfBounds })

/-- R170 and R161: LDR loads the word at the base register plus the offset, the base read before the
destination is written, or raises and writes nothing. -/
def Obligations.LdrLoadsBaseOffset : Prop :=
  (∀ w : Word, w.extractLsb' 12 4 = 0x6#4 →
    decode w = .ldr (.ofBits (w.extractLsb' 9 3)) (.ofBits (w.extractLsb' 6 3))
      (w.extractLsb' 0 6)) ∧
    (∀ (dr baseR : Reg) (off : BitVec 6), (encode (.ldr dr baseR off)).toNat =
      0x6000 + dr.bits.toNat * 512 + baseR.bits.toNat * 64 + off.toNat) ∧
    ∀ (dr baseR : Reg) (off : BitVec 6) (s : State),
      (∀ a : Word, (a.toNat : Int) = baseOff6 s baseR off → ∃ t,
        exec (.ldr dr baseR off) s = .next t ∧ ResultIn dr (s.mem.read a) s t) ∧
        (OutOfRange (baseOff6 s baseR off) →
          exec (.ldr dr baseR off) s = .next { s with run := false, stop := .outOfBounds })

/-- R174 and R175: LEA stores the sum modulo 65,536 and never raises. -/
def Obligations.LeaStoresTheWrappedAddress : Prop :=
  (∀ w : Word, w.extractLsb' 12 4 = 0xE#4 →
    decode w = .lea (.ofBits (w.extractLsb' 9 3)) (w.extractLsb' 0 9)) ∧
    (∀ (dr : Reg) (off : BitVec 9),
      (encode (.lea dr off)).toNat = 0xE000 + dr.bits.toNat * 512 + off.toNat) ∧
    ∀ (dr : Reg) (off : BitVec 9) (s : State), ∃ t, exec (.lea dr off) s = .next t ∧
      ResultIn dr (s.pc + off.signExtend 16) s t

/-! ## Stores -/

/-- R182 and R181: ST stores the register at the incremented pc plus the offset, or raises and writes
nothing. -/
def Obligations.StStoresPcRelative : Prop :=
  (∀ w : Word, w.extractLsb' 12 4 = 0x3#4 →
    decode w = .st (.ofBits (w.extractLsb' 9 3)) (w.extractLsb' 0 9)) ∧
    (∀ (sr : Reg) (off : BitVec 9),
      (encode (.st sr off)).toNat = 0x3000 + sr.bits.toNat * 512 + off.toNat) ∧
    ∀ (sr : Reg) (off : BitVec 9) (s : State),
      (∀ a : Word, (a.toNat : Int) = pcRel9 s off → ∃ t, exec (.st sr off) s = .next t ∧
        StoredAt a (s.rd sr) s t) ∧
        (OutOfRange (pcRel9 s off) →
          exec (.st sr off) s = .next { s with run := false, stop := .outOfBounds })

/-- R186 and R181: STI stores through the pointer, as it was before the write, at the incremented pc
plus the offset; only the read of the pointer can raise. -/
def Obligations.StiStoresThroughAPointer : Prop :=
  (∀ w : Word, w.extractLsb' 12 4 = 0xB#4 →
    decode w = .sti (.ofBits (w.extractLsb' 9 3)) (w.extractLsb' 0 9)) ∧
    (∀ (sr : Reg) (off : BitVec 9),
      (encode (.sti sr off)).toNat = 0xB000 + sr.bits.toNat * 512 + off.toNat) ∧
    ∀ (sr : Reg) (off : BitVec 9) (s : State),
      (∀ a : Word, (a.toNat : Int) = pcRel9 s off → ∃ t, exec (.sti sr off) s = .next t ∧
        StoredAt (s.mem.read a) (s.rd sr) s t) ∧
        (OutOfRange (pcRel9 s off) →
          exec (.sti sr off) s = .next { s with run := false, stop := .outOfBounds })

/-- R190 and R181: STR stores the register at the base register plus the offset, or raises and writes
nothing. -/
def Obligations.StrStoresBaseOffset : Prop :=
  (∀ w : Word, w.extractLsb' 12 4 = 0x7#4 →
    decode w = .str (.ofBits (w.extractLsb' 9 3)) (.ofBits (w.extractLsb' 6 3))
      (w.extractLsb' 0 6)) ∧
    (∀ (sr baseR : Reg) (off : BitVec 6), (encode (.str sr baseR off)).toNat =
      0x7000 + sr.bits.toNat * 512 + baseR.bits.toNat * 64 + off.toNat) ∧
    ∀ (sr baseR : Reg) (off : BitVec 6) (s : State),
      (∀ a : Word, (a.toNat : Int) = baseOff6 s baseR off → ∃ t,
        exec (.str sr baseR off) s = .next t ∧ StoredAt a (s.rd sr) s t) ∧
        (OutOfRange (baseOff6 s baseR off) →
          exec (.str sr baseR off) s = .next { s with run := false, stop := .outOfBounds })

/-! ## Control transfer -/

/-- R203: BR is taken exactly when a set condition bit matches the condition code; not taken it
changes nothing and cannot raise; taken it goes to the incremented pc plus the offset or raises. -/
def Obligations.BrBranchesOnTheConditionCode : Prop :=
  (∀ w : Word, w.extractLsb' 12 4 = 0x0#4 → w ≠ 0x0000#16 →
    decode w = .br (w.getLsbD 11) (w.getLsbD 10) (w.getLsbD 9) (w.extractLsb' 0 9)) ∧
    (∀ (n z p : Bool) (off : BitVec 9), (encode (.br n z p off)).toNat =
      n.toNat * 2048 + z.toNat * 1024 + p.toNat * 512 + off.toNat) ∧
    ∀ (n z p : Bool) (off : BitVec 9) (s : State),
      (¬ Taken n z p s.cc → exec (.br n z p off) s = .next s) ∧
        (Taken n z p s.cc →
          (∀ a : Word, (a.toNat : Int) = pcRel9 s off →
            exec (.br n z p off) s = .next { s with pc := a }) ∧
          (OutOfRange (pcRel9 s off) →
            exec (.br n z p off) s = .next { s with run := false, stop := .outOfBounds }))

/-- R208: JMP through any register; a word of opcode 0xC with base register 7, which the model names
`ret`, jumps as this rule says too. -/
def Obligations.JmpGoesToTheBaseRegister : Prop :=
  (∀ w : Word, w.extractLsb' 12 4 = 0xC#4 → w.extractLsb' 6 3 ≠ 0b111#3 →
    decode w = .jmp (.ofBits (w.extractLsb' 6 3))) ∧
    (∀ baseR : Reg, (encode (.jmp baseR)).toNat = 0xC000 + baseR.bits.toNat * 64) ∧
    (∀ (baseR : Reg) (s : State), exec (.jmp baseR) s = .next { s with pc := s.rd baseR }) ∧
    ∀ (w : Word) (s : State), w.extractLsb' 12 4 = 0xC#4 →
      exec (decode w) s = .next { s with pc := s.rd (.ofBits (w.extractLsb' 6 3)) }

/-- "RET is JMP with BaseR = 7" (R209, marked as derived in the spec), whatever the unused bits of its
word. -/
def Obligations.RetIsJmpThroughR7 : Prop :=
  (∀ w : Word, w.extractLsb' 12 4 = 0xC#4 → w.extractLsb' 6 3 = 0b111#3 → decode w = .ret) ∧
    encode .ret = 0xC1C0#16 ∧ encode .ret = encode (.jmp .r7) ∧
    ∀ s : State, exec .ret s = .next { s with pc := s.rd .r7 } ∧
      exec .ret s = exec (.jmp .r7) s

/-- R214 and R201: JSR saves the incremented pc in R7 and goes to the incremented pc plus the offset,
or raises and writes neither; the condition code does not change. -/
def Obligations.JsrLinksAndJumps : Prop :=
  (∀ w : Word, w.extractLsb' 12 4 = 0x4#4 → w.getLsbD 11 = true →
    decode w = .jsr (w.extractLsb' 0 11)) ∧
    (∀ off : BitVec 11, (encode (.jsr off)).toNat = 0x4800 + off.toNat) ∧
    ∀ (off : BitVec 11) (s : State),
      (∀ a : Word, (a.toNat : Int) = pcRel11 s off → ∃ t, exec (.jsr off) s = .next t ∧
        t.rd .r7 = s.pc ∧ SameRegsBut .r7 s t ∧ t.pc = a ∧ t.cc = s.cc ∧ SameRun s t ∧
        SameMem s t) ∧
        (OutOfRange (pcRel11 s off) →
          exec (.jsr off) s = .next { s with run := false, stop := .outOfBounds })

/-- R218 and R219 (with their decision D7): JSRR writes the link first and reads the base register
after it, so JSRR R7 goes on with the next instruction. -/
def Obligations.JsrrLinksThenReadsTheBase : Prop :=
  (∀ w : Word, w.extractLsb' 12 4 = 0x4#4 → w.getLsbD 11 = false →
    decode w = .jsrr (.ofBits (w.extractLsb' 6 3))) ∧
    (∀ baseR : Reg, (encode (.jsrr baseR)).toNat = 0x4000 + baseR.bits.toNat * 64) ∧
    ∀ (baseR : Reg) (s : State), ∃ t, exec (.jsrr baseR) s = .next t ∧
      t.rd .r7 = s.pc ∧ SameRegsBut .r7 s t ∧ (baseR ≠ .r7 → t.pc = s.rd baseR) ∧
      (baseR = .r7 → t.pc = s.pc) ∧ t.cc = s.cc ∧ SameRun s t ∧ SameMem s t

/-! ## TRAP and HALT -/

/-- R232: TRAP is an absolute jump to the zero-extended vector that saves nothing; with a vector other
than 0x25 the run goes on, with 0x25 it ends, by the word too, which the model then names `halt`. -/
def Obligations.TrapJumpsToTheVector : Prop :=
  (∀ w : Word, w.extractLsb' 12 4 = 0xF#4 → w.extractLsb' 0 8 ≠ 0x25#8 →
    decode w = .trap (w.extractLsb' 0 8)) ∧
    (∀ v : BitVec 8, (encode (.trap v)).toNat = 0xF000 + v.toNat) ∧
    ∀ (v : BitVec 8) (s : State),
      (v ≠ 0x25#8 → exec (.trap v) s = .next { s with pc := BitVec.ofNat 16 v.toNat }) ∧
        (v = 0x25#8 → exec (.trap v) s =
          .next { s with pc := 0x0025#16, run := false, stop := .halt }) ∧
        ∀ w : Word, w.extractLsb' 12 4 = 0xF#4 → w.extractLsb' 0 8 = v →
          exec (decode w) s = exec (.trap v) s

/-- R233: HALT is TRAP 0x25, whatever the unused bits of its word: the pc is 0x0025, the run flag
false and nothing else changes. -/
def Obligations.HaltEndsTheRun : Prop :=
  (∀ w : Word, w.extractLsb' 12 4 = 0xF#4 → w.extractLsb' 0 8 = 0x25#8 → decode w = .halt) ∧
    encode .halt = 0xF025#16 ∧ encode .halt = encode (.trap 0x25#8) ∧
    (∀ s : State, exec .halt s = .next { s with pc := 0x0025#16, run := false, stop := .halt } ∧
      exec .halt s = exec (.trap 0x25#8) s) ∧
    ∀ s : State, s.run = true → s.pc ≠ 0xFFFF#16 → decode (s.mem.read s.pc) = .halt →
      stepReport s = .halt

/-! ## Rules of the whole machine -/

/-- R28: the condition code is written by the seven instruction classes alone, from the destination
register, and by no other instruction and, which the spec marks as derived, no patch of the host. -/
def Obligations.OnlySevenClassesWriteTheConditionCode : Prop :=
  (∀ (i : Instr) (s t : State), exec i s = .next t →
    (SetsCc i = none → t.cc = s.cc) ∧
      ∀ dr, SetsCc i = some dr →
        t.cc = ccOf (t.rd dr) ∨ t = { s with run := false, stop := .outOfBounds }) ∧
    ∀ (s : State) (r : Reg) (a v : Word),
      (patchReg s r v).cc = s.cc ∧ (patchMem s a v).cc = s.cc

/-- From the table of R22: an instruction changes no general register but the one its row of the table
names. -/
def Obligations.InstructionsWriteOnlyTheirRegister : Prop :=
  ∀ (i : Instr) (s t : State) (r : Reg), exec i s = .next t → ¬ WritesReg i r → t.rd r = s.rd r

/-- From R53 and R180: an instruction changes no memory word but the one a store addresses. -/
def Obligations.OnlyStoresChangeMemory : Prop :=
  ∀ (i : Instr) (s t : State) (a : Word), exec i s = .next t → ¬ StoresTo i s a →
    t.mem.read a = s.mem.read a

/-- R255 (with its decisions D1 and D2): a step from Ready ends with OutOfBounds exactly where the
table says, and reports the exact value. -/
def Obligations.OutOfBoundsIsRaisedExactlyAtTheListedPlaces : Prop :=
  ∀ s t : State, s.run = true → s.stop = .none → step s = .next t →
    (t.stop = .outOfBounds ↔ ∃ v, Raises s v) ∧
      ∀ v, Raises s v → stepReport s = .outOfBounds v

/-- R262 (with its decision D3): the state each stop leaves: the pc by the cause, everything else
unchanged. -/
def Obligations.StateLeftByEachStop : Prop :=
  (∀ s t : State, s.run = true → step s = .next t → t.run = false →
    t.x = s.x ∧ t.cc = s.cc ∧ t.mem = s.mem ∧
      ((t.stop = .halt ∧ t.pc = 0x0025#16) ∨
        (t.stop = .zeroWord ∧ t.pc = s.pc) ∨
        (t.stop = .outOfBounds ∧ s.pc = 0xFFFF#16 ∧ t.pc = 0xFFFF#16) ∨
        (t.stop = .unknownOpcode ∧ s.pc ≠ 0xFFFF#16 ∧ t.pc = s.pc + 1#16) ∨
        (t.stop = .outOfBounds ∧ s.pc ≠ 0xFFFF#16 ∧ t.pc = s.pc + 1#16))) ∧
    ∀ s : State, s.run = true →
      stopRequest s = { s with run := false, stop := .operatorStop }

/-- R264: a stop is final. However many steps are asked for, nothing changes; no operation of the host
but reset sets the run flag back or replaces the first cause; patches still write, and reset makes the
engine Ready again. -/
def Obligations.StopIsFinalUntilReset : Prop :=
  (∀ (k : Nat) (s : State), s.run = false → Host.Core.run Sys2Proof.core k s = .next s) ∧
    (∀ (b : Session) (op : HostOp), b.machine.run = false → op ≠ .reset →
      (b.apply op).1.machine.run = false ∧ (b.apply op).1.machine.stop = b.machine.stop) ∧
    ∀ b : Session, (∀ r v, (b.apply (.writeReg r v)).1.machine.rd r = v) ∧
      (∀ a v, (b.apply (.writeMem a v)).1.machine.mem.read a = v) ∧
      (b.apply .reset).1.machine.run = true

/-! ## Reset and the invariant -/

/-- R291: the created state, which the host's reset gives from any state; the spec says of the pc
value that it is its own decision (D15). -/
def Obligations.ResetGivesTheCreatedState : Prop :=
  (∀ r, State.reset.rd r = 0x0000#16) ∧ (∀ a : Word, State.reset.mem.read a = 0x0000#16) ∧
    State.reset.cc = .z ∧ State.reset.run = true ∧ State.reset.stop = .none ∧
    State.reset.pc = 0x0000#16 ∧ ∀ b : Session, (b.apply .reset).1.machine = State.reset

/-- The invariant of the model (its canonical memory, log entry 2, and what R33 says of the run flag
and the stop cause) holds after reset. -/
def Obligations.ResetMeetsTheInvariant : Prop := State.reset.Inv

/-- The model's invariant (log entry 2, R33): every step keeps memory canonical and the run flag true
exactly when no stop cause is recorded, from every state that meets this. -/
def Obligations.EveryStepKeepsTheInvariant : Prop :=
  ∀ s t : State, s.Inv → step s = .next t → t.Inv

/-- The model's invariant (log entry 2, R33) is kept by every operation the host can ask for, any
number of steps included. -/
def Obligations.EveryHostOperationKeepsTheInvariant : Prop :=
  ∀ (b : Session) (op : HostOp), b.machine.Inv → (b.apply op).1.machine.Inv

/-! ## Load and the host -/

/-- R293: a load that fits places the image from the start address upward, sets the pc and touches
nothing else. -/
def Obligations.LoadPlacesTheImage : Prop :=
  ∀ (s : State) (start : Word) (image : List Word), start.toNat + image.length ≤ 65536 →
    ∃ t, load s start image = some t ∧ t.pc = start ∧
      (∀ (a : Word) (k : Nat) (h : k < image.length), a.toNat = start.toNat + k →
        t.mem.read a = image[k]) ∧
      (∀ a : Word, a.toNat < start.toNat ∨ start.toNat + image.length ≤ a.toNat →
        t.mem.read a = s.mem.read a) ∧
      SameRegs s t ∧ t.cc = s.cc ∧ SameRun s t

/-- From R128, R321 and R330: a step the host asks for is the step of the machine, and tells the host
its report and whether to continue, which is the run flag after it. -/
def Obligations.HostStepIsTheStepOfTheMachine : Prop :=
  ∀ (b : Session) (t : State), step b.machine = .next t →
    (b.apply .step).1.machine = t ∧ (b.apply .step).2 = .stepped (stepReport b.machine) t.run

/-- From R129 and R324: `run` is the repetition of `step` while the engine is Ready. Its fuel is the
model's (log entry 7), and so is its answer, the reports of its steps in order (log entry 13); the
fourth clause says that a run that ends, ends with the report of its stop. -/
def Obligations.RunIsTheRepetitionOfStep : Prop :=
  (∀ b : Session, b.apply (.run 0) = (b, .ran [] b.machine.run)) ∧
    (∀ (b : Session) (fuel : Nat), b.machine.run = false → b.apply (.run fuel) = (b, .ran [] false)) ∧
    (∀ (b : Session) (fuel : Nat), b.machine.run = true →
      ∃ reports goOn, ((b.apply .step).1.apply (.run fuel)).2 = .ran reports goOn ∧
        b.apply (.run (fuel + 1)) = (((b.apply .step).1.apply (.run fuel)).1,
          .ran (stepReport b.machine :: reports) goOn)) ∧
    ∀ (b : Session) (fuel : Nat), b.machine.Inv → b.machine.run = true →
      (b.apply (.run fuel)).1.machine.run = false →
      ∃ reports last, (b.apply (.run fuel)).2 = .ran (reports ++ [last]) false ∧
        last.cause = (b.apply (.run fuel)).1.machine.stop

/-- R294 (with its decision D14): an image that runs past the top of memory is refused whole, and an
empty one only sets the pc. -/
def Obligations.LoadPastTheTopIsRefusedWhole : Prop :=
  (∀ (b : Session) (start : Word) (image : List Word), 65536 < start.toNat + image.length →
    b.apply (.load start image) = (b, .loadRefused)) ∧
    ∀ (b : Session) (start : Word), b.machine.run = true → b.stepped = false →
      (b.apply (.load start [])).1 = { b with machine := { b.machine with pc := start } }

/-- From R296: a load after the first step or in Halted is refused; before the first step it is
accepted, any number of times; a step made in Ready is remembered until reset, and no other operation
but `run` has that effect; reset returns to the created state, where it is accepted again. The bit
that remembers the first step is the model's (log entry 3), and so are the answers to the host, the
refusal of a late load and the done of an accepted one (log entry 13). -/
def Obligations.LoadIsAcceptedOnlyBeforeTheFirstStep : Prop :=
  (∀ (b : Session) (start : Word) (image : List Word), b.stepped = true ∨ b.machine.run = false →
    b.apply (.load start image) = (b, .loadRefused)) ∧
    (∀ (b : Session) (start : Word) (image : List Word), b.stepped = false →
      b.machine.run = true → start.toNat + image.length ≤ 65536 →
      (b.apply (.load start image)).2 = .done ∧ (b.apply (.load start image)).1.stepped = false ∧
        some (b.apply (.load start image)).1.machine = load b.machine start image) ∧
    (∀ b : Session, b.machine.run = true → (b.apply .step).1.stepped = true) ∧
    (∀ b : Session, b.machine.run = false → (b.apply .step).1.stepped = b.stepped) ∧
    (∀ (b : Session) (op : HostOp), op ≠ .reset → b.stepped = true →
      (b.apply op).1.stepped = true) ∧
    (∀ (b : Session) (op : HostOp), op ≠ .step → (∀ fuel, op ≠ .run fuel) → b.stepped = false →
      (b.apply op).1.stepped = false) ∧
    ∀ b : Session, (b.apply .reset).1 = { machine := State.reset, stepped := false }

/-- R332: a patch changes its target alone ("Nothing else changes", marked as derived in the spec), in
Ready and in Halted, the next fetch sees it, and the host's write_reg and write_mem are these patches.
-/
def Obligations.PatchChangesItsTargetAlone : Prop :=
  (∀ (s : State) (r : Reg) (v : Word),
    (patchReg s r v).rd r = v ∧ SameRegsBut r s (patchReg s r v) ∧
      (patchReg s r v).pc = s.pc ∧ (patchReg s r v).cc = s.cc ∧ SameRun s (patchReg s r v) ∧
      SameMem s (patchReg s r v)) ∧
    (∀ (s : State) (a v : Word), StoredAt a v s (patchMem s a v)) ∧
    (∀ (s : State) (v : Word), fetch (patchMem s s.pc v) = v) ∧
    ∀ b : Session,
      (∀ r v, (b.apply (.writeReg r v)).1.machine = patchReg b.machine r v) ∧
        ∀ a v, (b.apply (.writeMem a v)).1.machine = patchMem b.machine a v

/-- From R331, and R251 (with its decision D12) for the codes of the stop causes: a read tells the
host the value it asked for and changes nothing. -/
def Obligations.ReadsChangeNothing : Prop :=
  ∀ b : Session,
    (∀ r, b.apply (.readReg r) = (b, .word (b.machine.rd r))) ∧
      b.apply .readPc = (b, .word b.machine.pc) ∧ b.apply .readCc = (b, .condition b.machine.cc) ∧
      b.apply .readRun = (b, .runFlag b.machine.run) ∧
      b.apply .readStop = (b, .stopCode b.machine.stop b.machine.stop.code) ∧
      (∀ a, b.apply (.readMem a) = (b, .word (b.machine.mem.read a))) ∧
      (∀ a, b.apply (.dumpMem a) = (b, .words (dumpMem b.machine a))) ∧
      (StopCause.none.code = 0#3 ∧ StopCause.halt.code = 1#3 ∧ StopCause.zeroWord.code = 2#3 ∧
        StopCause.unknownOpcode.code = 3#3 ∧ StopCause.outOfBounds.code = 4#3 ∧
        StopCause.operatorStop.code = 5#3) ∧
      ∃ d : RegDump, b.apply .dumpRegs = (b, .regs d) ∧ (∀ r, d.x.get r = b.machine.rd r) ∧
        d.pc = b.machine.pc ∧ d.cc = b.machine.cc

/-- R333 (with its decision D17): the host writes the pc only by reset, load and the steps it asks
for, the condition code only by reset and those steps, and the run flag and stop cause beside these
only by a stop request. -/
def Obligations.HostCannotPatchControlState : Prop :=
  ∀ (b : Session) (op : HostOp), op ≠ .reset → op ≠ .step → (∀ fuel, op ≠ .run fuel) →
    (b.apply op).1.machine.cc = b.machine.cc ∧
      ((∀ start image, op ≠ .load start image) → (b.apply op).1.machine.pc = b.machine.pc) ∧
      (op ≠ .stopRequest → SameRun b.machine (b.apply op).1.machine)

/-- From R334 (its decision D20): a memory dump is the words from four below to four above the
address, clipped to the memory. -/
def Obligations.DumpWindowIsClipped : Prop :=
  ∀ (s : State) (a : Word), ∃ low count : Nat,
    (low : Int) = max 0 ((a.toNat : Int) - 4) ∧
      (low : Int) + count = min 65535 ((a.toNat : Int) + 4) + 1 ∧
      dumpMem s a = (List.range count).map fun k => s.mem.read (BitVec.ofNat 16 (low + k))

/-- R336: a stop request in Ready clears the run flag and records its cause; in Halted it changes
nothing; the host's operation is this request. -/
def Obligations.StopRequestStopsAReadyMachine : Prop :=
  (∀ s : State,
    (s.run = true → stopRequest s = { s with run := false, stop := .operatorStop }) ∧
      (s.run = false → stopRequest s = s)) ∧
    ∀ b : Session, (b.apply .stopRequest).1.machine = stopRequest b.machine
end

