-- ==== Sys2Proof/Laws/Memory.lean ====
section
/-! SUPPORT. The laws of memory: a read after a write to the same address gives the value written, a
write leaves every other address alone, and every memory operation keeps the canonical form. The read
laws hold of every list, canonical or not. -/

namespace Sys2Proof.Machine

/-! ## Reads -/

@[simp] theorem Memory.get_nil (a : Nat) : Memory.get [] a = Config.unlistedWord := rfl

theorem Memory.get_erase_same (m : Memory) (a : Nat) :
    (m.erase a).get a = Config.unlistedWord := by
  induction m with
  | nil => rfl
  | cons c m ih =>
    by_cases h : c.1 = a
    · simpa [Memory.erase, h] using ih
    · simpa [Memory.erase, Memory.get, h] using ih

theorem Memory.get_erase_other (m : Memory) {a b : Nat} (h : b ≠ a) :
    (m.erase a).get b = m.get b := by
  induction m with
  | nil => rfl
  | cons c m ih =>
    by_cases hc : c.1 = a
    · have : ¬ c.1 = b := fun e => h (e ▸ hc)
      simpa [Memory.erase, Memory.get, hc, this, h.symm] using ih
    · have ih' : Memory.get (List.filter (fun c => decide (c.1 ≠ a)) m) b = Memory.get m b := ih
      simp [Memory.erase, Memory.get, hc] at ih' ⊢
      rw [ih']

theorem Memory.get_insert_same (m : Memory) {a : Nat} (v : Word) (h : ∀ c ∈ m, c.1 ≠ a) :
    (m.insert a v).get a = v := by
  induction m with
  | nil => simp [Memory.insert, Memory.get]
  | cons c m ih =>
    have hc : c.1 ≠ a := h c (by simp)
    have ih' := ih fun d hd => h d (by simp [hd])
    by_cases hl : a < c.1 <;> simp [Memory.insert, Memory.get, hl, hc, ih']

theorem Memory.get_insert_other (m : Memory) {a b : Nat} (v : Word) (h : b ≠ a) :
    (m.insert a v).get b = m.get b := by
  induction m with
  | nil => simp [Memory.insert, Memory.get, h.symm]
  | cons c m ih => by_cases hl : a < c.1 <;> simp [Memory.insert, Memory.get, hl, h.symm, ih]

theorem Memory.ne_of_mem_erase {m : Memory} {a : Nat} {c : Nat × Word} (h : c ∈ m.erase a) :
    c.1 ≠ a := by
  simpa using (List.mem_filter.mp h).2

@[simp] theorem Memory.get_put_same (m : Memory) (a : Nat) (v : Word) : (m.put a v).get a = v := by
  unfold Memory.put
  split
  · rw [Memory.get_erase_same]; exact Eq.symm ‹_›
  · exact Memory.get_insert_same _ _ fun c hc => Memory.ne_of_mem_erase hc

theorem Memory.get_put_other (m : Memory) {a b : Nat} (v : Word) (h : b ≠ a) :
    (m.put a v).get b = m.get b := by
  unfold Memory.put
  split
  · exact Memory.get_erase_other m h
  · rw [Memory.get_insert_other _ _ h, Memory.get_erase_other m h]

@[simp] theorem Memory.read_write_same (m : Memory) (a v : Word) : (m.write a v).read a = v :=
  Memory.get_put_same m a.toNat v

theorem Memory.read_write_other (m : Memory) {a b : Word} (v : Word) (h : b ≠ a) :
    (m.write a v).read b = m.read b :=
  Memory.get_put_other m v fun e => h (BitVec.eq_of_toNat_eq e)

/-! ## The canonical form -/

/-- The list form of `Memory.sorted`, which induction over the list can use. -/
theorem Memory.sorted_iff (m : Memory) :
    m.sorted = true ↔ m.Pairwise fun c d => c.1 < d.1 := by
  induction m with
  | nil => simp [Memory.sorted]
  | cons c m ih =>
    cases m with
    | nil => simp [Memory.sorted]
    | cons d m =>
      simp only [Memory.sorted, Bool.and_eq_true, decide_eq_true_eq, ih,
        List.pairwise_cons (a := c)]
      constructor
      · rintro ⟨hcd, h⟩
        refine ⟨fun e he => ?_, h⟩
        rcases List.mem_cons.mp he with rfl | he
        · exact hcd
        · exact hcd.trans ((List.pairwise_cons.mp h).1 e he)
      · rintro ⟨hall, h⟩
        exact ⟨hall d (by simp), h⟩

theorem Memory.wf_iff (m : Memory) :
    m.wf = true ↔ (m.Pairwise fun c d => c.1 < d.1) ∧
      ∀ c ∈ m, c.1 < Config.memWords ∧ c.2 ≠ Config.unlistedWord := by
  simp [Memory.wf, Memory.sorted_iff]

theorem Memory.mem_insert {m : Memory} {a : Nat} {v : Word} {c : Nat × Word}
    (h : c ∈ m.insert a v) : c = (a, v) ∨ c ∈ m := by
  induction m with
  | nil => simpa [Memory.insert] using h
  | cons d m ih =>
    by_cases hl : a < d.1
    · simpa [Memory.insert, hl] using h
    · simp only [Memory.insert, hl, if_false, List.mem_cons] at h
      rcases h with rfl | h
      · simp
      · rcases ih h with h | h <;> simp [h]

theorem Memory.insert_sorted {m : Memory} {a : Nat} (v : Word)
    (hs : m.Pairwise fun c d => c.1 < d.1) (ha : ∀ c ∈ m, c.1 ≠ a) :
    (m.insert a v).Pairwise fun c d => c.1 < d.1 := by
  induction m with
  | nil => simp [Memory.insert]
  | cons c m ih =>
    have hc := List.pairwise_cons.mp hs
    by_cases hl : a < c.1
    · simp only [Memory.insert, hl, if_true]
      refine List.pairwise_cons.mpr ⟨fun d hd => ?_, hs⟩
      rcases List.mem_cons.mp hd with rfl | hd
      · exact hl
      · exact hl.trans (hc.1 d hd)
    · simp only [Memory.insert, hl, if_false]
      refine List.pairwise_cons.mpr ⟨fun d hd => ?_, ih hc.2 fun d hd => ha d (by simp [hd])⟩
      rcases Memory.mem_insert hd with rfl | hd
      · have := ha c (by simp)
        show c.1 < a
        omega
      · exact hc.1 d hd

/-- A write keeps the canonical form. -/
theorem Memory.put_wf {m : Memory} (h : m.wf = true) {a : Nat} (ha : a < Config.memWords) (v : Word) :
    (m.put a v).wf = true := by
  rw [Memory.wf_iff] at h ⊢
  have hs : (m.erase a).Pairwise fun c d => c.1 < d.1 := h.1.filter _
  have hm : ∀ c ∈ m.erase a, c.1 < Config.memWords ∧ c.2 ≠ Config.unlistedWord :=
    fun c hc => h.2 c (List.mem_filter.mp hc).1
  unfold Memory.put
  split
  · exact ⟨hs, hm⟩
  · next hv =>
    refine ⟨Memory.insert_sorted v hs fun c hc => Memory.ne_of_mem_erase hc, fun c hc => ?_⟩
    rcases Memory.mem_insert hc with rfl | hc
    · exact ⟨ha, hv⟩
    · exact hm c hc

theorem Memory.write_wf {m : Memory} (h : m.wf = true) (a v : Word) : (m.write a v).wf = true :=
  Memory.put_wf h a.isLt v

theorem Memory.nil_wf : Memory.wf [] = true := rfl

end Sys2Proof.Machine
end

