-- ==== Sys2Proof/Laws/State.lean ====
section
/-! SUPPORT. One lemma per field per update of the state, so that no later proof unfolds a record
update, and the read of a register after each update. -/

namespace Sys2Proof.Machine

@[simp] theorem Regs.get_set_same (x : Regs) (r : Reg) (v : Word) : (x.set r v).get r = v := by
  cases r <;> rfl

theorem Regs.get_set_other (x : Regs) {r q : Reg} (v : Word) (h : q ≠ r) :
    (x.set r v).get q = x.get q := by
  cases r <;> cases q <;> first | rfl | exact absurd rfl h

variable (s : State)

@[simp] theorem State.wr_x (r : Reg) (v : Word) : (s.wr r v).x = s.x.set r v := rfl
@[simp] theorem State.wr_pc (r : Reg) (v : Word) : (s.wr r v).pc = s.pc := rfl
@[simp] theorem State.wr_cc (r : Reg) (v : Word) : (s.wr r v).cc = s.cc := rfl
@[simp] theorem State.wr_run (r : Reg) (v : Word) : (s.wr r v).run = s.run := rfl
@[simp] theorem State.wr_stop (r : Reg) (v : Word) : (s.wr r v).stop = s.stop := rfl
@[simp] theorem State.wr_mem (r : Reg) (v : Word) : (s.wr r v).mem = s.mem := rfl

@[simp] theorem State.setPc_x (t : Word) : (s.setPc t).x = s.x := rfl
@[simp] theorem State.setPc_pc (t : Word) : (s.setPc t).pc = t := rfl
@[simp] theorem State.setPc_cc (t : Word) : (s.setPc t).cc = s.cc := rfl
@[simp] theorem State.setPc_run (t : Word) : (s.setPc t).run = s.run := rfl
@[simp] theorem State.setPc_stop (t : Word) : (s.setPc t).stop = s.stop := rfl
@[simp] theorem State.setPc_mem (t : Word) : (s.setPc t).mem = s.mem := rfl

@[simp] theorem State.setMem_x (a v : Word) : (s.setMem a v).x = s.x := rfl
@[simp] theorem State.setMem_pc (a v : Word) : (s.setMem a v).pc = s.pc := rfl
@[simp] theorem State.setMem_cc (a v : Word) : (s.setMem a v).cc = s.cc := rfl
@[simp] theorem State.setMem_run (a v : Word) : (s.setMem a v).run = s.run := rfl
@[simp] theorem State.setMem_stop (a v : Word) : (s.setMem a v).stop = s.stop := rfl
@[simp] theorem State.setMem_mem (a v : Word) : (s.setMem a v).mem = s.mem.write a v := rfl

@[simp] theorem State.stopWith_x (c : StopCause) : (s.stopWith c).x = s.x := rfl
@[simp] theorem State.stopWith_pc (c : StopCause) : (s.stopWith c).pc = s.pc := rfl
@[simp] theorem State.stopWith_cc (c : StopCause) : (s.stopWith c).cc = s.cc := rfl
@[simp] theorem State.stopWith_run (c : StopCause) : (s.stopWith c).run = false := rfl
@[simp] theorem State.stopWith_stop (c : StopCause) : (s.stopWith c).stop = c := rfl
@[simp] theorem State.stopWith_mem (c : StopCause) : (s.stopWith c).mem = s.mem := rfl

@[simp] theorem State.setcc_x (v : Word) : (s.setcc v).x = s.x := rfl
@[simp] theorem State.setcc_pc (v : Word) : (s.setcc v).pc = s.pc := rfl
@[simp] theorem State.setcc_cc (v : Word) : (s.setcc v).cc = ccOf v := rfl
@[simp] theorem State.setcc_run (v : Word) : (s.setcc v).run = s.run := rfl
@[simp] theorem State.setcc_stop (v : Word) : (s.setcc v).stop = s.stop := rfl
@[simp] theorem State.setcc_mem (v : Word) : (s.setcc v).mem = s.mem := rfl

@[simp] theorem State.writeBack_x (dr : Reg) (v : Word) : (s.writeBack dr v).x = s.x.set dr v := rfl
@[simp] theorem State.writeBack_pc (dr : Reg) (v : Word) : (s.writeBack dr v).pc = s.pc := rfl
@[simp] theorem State.writeBack_cc (dr : Reg) (v : Word) : (s.writeBack dr v).cc = ccOf v := rfl
@[simp] theorem State.writeBack_run (dr : Reg) (v : Word) : (s.writeBack dr v).run = s.run := rfl
@[simp] theorem State.writeBack_stop (dr : Reg) (v : Word) : (s.writeBack dr v).stop = s.stop := rfl
@[simp] theorem State.writeBack_mem (dr : Reg) (v : Word) : (s.writeBack dr v).mem = s.mem := rfl

@[simp] theorem State.rd_wr_same (r : Reg) (v : Word) : (s.wr r v).rd r = v := by
  simp [State.rd]

theorem State.rd_wr_other {r q : Reg} (v : Word) (h : q ≠ r) : (s.wr r v).rd q = s.rd q :=
  Regs.get_set_other s.x v h

@[simp] theorem State.rd_writeBack_same (dr : Reg) (v : Word) : (s.writeBack dr v).rd dr = v := by
  simp [State.rd]

theorem State.rd_writeBack_other {dr q : Reg} (v : Word) (h : q ≠ dr) :
    (s.writeBack dr v).rd q = s.rd q :=
  Regs.get_set_other s.x v h

@[simp] theorem State.rd_setPc (t : Word) (q : Reg) : (s.setPc t).rd q = s.rd q := rfl
@[simp] theorem State.rd_setMem (a v : Word) (q : Reg) : (s.setMem a v).rd q = s.rd q := rfl
@[simp] theorem State.rd_stopWith (c : StopCause) (q : Reg) : (s.stopWith c).rd q = s.rd q := rfl
@[simp] theorem State.rd_setcc (v : Word) (q : Reg) : (s.setcc v).rd q = s.rd q := rfl

end Sys2Proof.Machine
end

