-- ==== Sys2Proof/Laws/Ops.lean ====
section
/-! SUPPORT. For each shared operation, one lemma that says everything it can do: the numbers, the
memory primitives, the shared ends of the load, store and jump meanings, the pc advance and the
cycle. Proofs cite these and do not unfold the operations. -/

namespace Sys2Proof.Machine

/-! ## Numbers -/

theorem trunc16_toNat (x : Int) : ((trunc16 x).toNat : Int) = x % 65536 := by
  simp only [trunc16, BitVec.toNat_ofInt]
  omega

theorem trunc16_toNat_of_inRange {x : Int} (h : InRange x) : ((trunc16 x).toNat : Int) = x := by
  have := trunc16_toNat x
  have := h.1
  have := h.2
  omega

@[simp] theorem trunc16_toNat_cast (w : Word) : trunc16 (w.toNat : Int) = w := by
  apply BitVec.eq_of_toNat_eq
  have := trunc16_toNat (w.toNat : Int)
  have := w.isLt
  omega

theorem inRange_toNat (w : Word) : InRange (w.toNat : Int) := by
  have := w.isLt
  constructor <;> omega

/-- The spec's sign extension is the two's complement reading of the field. -/
theorem sext_eq_toInt {n : Nat} (v : BitVec n) : sext v = v.toInt := by
  rw [sext, BitVec.toInt_eq_msb_cond]
  norm_cast

theorem immWord_eq_signExtend (v : BitVec 5) : immWord v = v.signExtend 16 := by
  rw [immWord, sext_eq_toInt, trunc16, BitVec.signExtend]

/-- Truncating a sum that starts from a word is wrapping addition. -/
theorem trunc16_add (a : Word) (k : Int) : trunc16 ((a.toNat : Int) + k) = a + trunc16 k := by
  apply BitVec.eq_of_toNat_eq
  have := trunc16_toNat ((a.toNat : Int) + k)
  have := trunc16_toNat k
  rw [BitVec.toNat_add]
  omega

/-- A sign-extended field truncated to a word. -/
theorem trunc16_sext {n : Nat} (v : BitVec n) : trunc16 (sext v) = v.signExtend 16 := by
  rw [sext_eq_toInt, trunc16, BitVec.signExtend]

theorem addTrunc_word (a b : Word) : addTrunc a (b.toNat : Int) = a + b := by
  rw [addTrunc, trunc16_add, trunc16_toNat_cast]

theorem addTrunc_sext {n : Nat} (a : Word) (v : BitVec n) :
    addTrunc a (sext v) = a + v.signExtend 16 := by
  rw [addTrunc, trunc16_add, trunc16_sext]

theorem vectorAddress_toNat (v : BitVec 8) : (vectorAddress v).toNat = v.toNat := by
  have := v.isLt
  simp [vectorAddress]
  omega

/-! ## The memory primitives -/

theorem memRead_of_inRange (s : State) {a : Int} (h : InRange a) :
    memRead s a = some (s.mem.read (trunc16 a)) := if_pos h

theorem memRead_of_not_inRange (s : State) {a : Int} (h : ¬ InRange a) : memRead s a = none :=
  if_neg h

@[simp] theorem memRead_word (s : State) (p : Word) :
    memRead s (p.toNat : Int) = some (s.mem.read p) := by
  rw [memRead_of_inRange s (inRange_toNat p), trunc16_toNat_cast]

theorem memWrite_of_inRange (s : State) {a : Int} (v : Word) (h : InRange a) :
    memWrite s a v = some (s.setMem (trunc16 a) v) := if_pos h

theorem memWrite_of_not_inRange (s : State) {a : Int} (v : Word) (h : ¬ InRange a) :
    memWrite s a v = none := if_neg h

@[simp] theorem memWrite_word (s : State) (p v : Word) :
    memWrite s (p.toNat : Int) v = some (s.setMem p v) := by
  rw [memWrite_of_inRange s v (inRange_toNat p), trunc16_toNat_cast]

/-! ## The shared ends of the meanings -/

/-- A load completes when its address is in range and otherwise raises with nothing written. -/
theorem loadFrom_spec (dr : Reg) (ea : Int) (s : State) :
    (InRange ea ∧ loadFrom dr ea s = .next (s.writeBack dr (s.mem.read (trunc16 ea)))) ∨
      (¬ InRange ea ∧ loadFrom dr ea s = .next (s.stopWith .outOfBounds)) := by
  by_cases h : InRange ea
  · exact .inl ⟨h, by rw [loadFrom, memRead_of_inRange s h]⟩
  · exact .inr ⟨h, by rw [loadFrom, memRead_of_not_inRange s h]; rfl⟩

theorem loadFrom_word (dr : Reg) (p : Word) (s : State) :
    loadFrom dr (p.toNat : Int) s = .next (s.writeBack dr (s.mem.read p)) := by
  rw [loadFrom, memRead_word]

/-- A store completes when its address is in range and otherwise raises with nothing written. -/
theorem storeTo_spec (ea : Int) (v : Word) (s : State) :
    (InRange ea ∧ storeTo ea v s = .next (s.setMem (trunc16 ea) v)) ∨
      (¬ InRange ea ∧ storeTo ea v s = .next (s.stopWith .outOfBounds)) := by
  by_cases h : InRange ea
  · exact .inl ⟨h, by rw [storeTo, memWrite_of_inRange s v h]⟩
  · exact .inr ⟨h, by rw [storeTo, memWrite_of_not_inRange s v h]; rfl⟩

theorem storeTo_word (p v : Word) (s : State) :
    storeTo (p.toNat : Int) v s = .next (s.setMem p v) := by
  rw [storeTo, memWrite_word]

/-- The pointer read of LDI raises with nothing written, or gives a word that is the address loaded. -/
theorem execLdi_spec (dr : Reg) (off : BitVec 9) (s : State) :
    (InRange (pcRel9 s off) ∧
        execLdi dr off s =
          .next (s.writeBack dr (s.mem.read (s.mem.read (trunc16 (pcRel9 s off)))))) ∨
      (¬ InRange (pcRel9 s off) ∧ execLdi dr off s = .next (s.stopWith .outOfBounds)) := by
  by_cases h : InRange (pcRel9 s off)
  · exact .inl ⟨h, by rw [execLdi, memRead_of_inRange s h]; exact loadFrom_word dr _ s⟩
  · exact .inr ⟨h, by rw [execLdi, memRead_of_not_inRange s h]; rfl⟩

/-- The pointer read of STI raises with nothing written, or gives a word that is the address stored
to. -/
theorem execSti_spec (sr : Reg) (off : BitVec 9) (s : State) :
    (InRange (pcRel9 s off) ∧
        execSti sr off s =
          .next (s.setMem (s.mem.read (trunc16 (pcRel9 s off))) (s.rd sr))) ∨
      (¬ InRange (pcRel9 s off) ∧ execSti sr off s = .next (s.stopWith .outOfBounds)) := by
  by_cases h : InRange (pcRel9 s off)
  · exact .inl ⟨h, by rw [execSti, memRead_of_inRange s h]; exact storeTo_word _ _ s⟩
  · exact .inr ⟨h, by rw [execSti, memRead_of_not_inRange s h]; rfl⟩

/-- A checked jump goes to its target when that is in range and otherwise raises with nothing written. -/
theorem jumpChecked_spec (s : State) (t : Int) (k : Word → State) :
    (InRange t ∧ jumpChecked s t k = .next (k (trunc16 t))) ∨
      (¬ InRange t ∧ jumpChecked s t k = .next (s.stopWith .outOfBounds)) := by
  by_cases h : InRange t
  · exact .inl ⟨h, if_pos h⟩
  · exact .inr ⟨h, if_neg h⟩

/-- BR: not taken, taken to a target in range, or taken and raising. -/
theorem execBr_spec (n z p : Bool) (off : BitVec 9) (s : State) :
    (branchTaken n z p s.cc = false ∧ execBr n z p off s = .next s) ∨
      (branchTaken n z p s.cc = true ∧ InRange (pcRel9 s off) ∧
        execBr n z p off s = .next (s.setPc (trunc16 (pcRel9 s off)))) ∨
      (branchTaken n z p s.cc = true ∧ ¬ InRange (pcRel9 s off) ∧
        execBr n z p off s = .next (s.stopWith .outOfBounds)) := by
  cases h : branchTaken n z p s.cc
  · exact .inl ⟨rfl, by simp [execBr, h]⟩
  · rcases jumpChecked_spec s (pcRel9 s off) s.setPc with ⟨hr, he⟩ | ⟨hr, he⟩
    · exact .inr (.inl ⟨rfl, hr, by simpa [execBr, h] using he⟩)
    · exact .inr (.inr ⟨rfl, hr, by simpa [execBr, h] using he⟩)

/-! ## The pc advance and the cycle -/

theorem advance_of_lt (s : State) (h : s.pc ≠ 0xFFFF#16) :
    advance s = some (s.setPc (s.pc + 1#16)) := if_neg h

theorem advance_of_top (s : State) (h : s.pc = 0xFFFF#16) : advance s = none := if_pos h

/-- Everything a step can do (R127): nothing in Halted, the zero-word stop, the stop at 0xFFFF, or the
decoded instruction on the incremented pc. -/
theorem step_spec (s : State) :
    (s.run = false ∧ step s = .next s) ∨
      (s.run = true ∧ fetch s = 0x0000#16 ∧ step s = .next (s.stopWith .zeroWord)) ∨
      (s.run = true ∧ fetch s ≠ 0x0000#16 ∧ s.pc = 0xFFFF#16 ∧ step s = .next (s.stopWith .outOfBounds)) ∨
      (s.run = true ∧ fetch s ≠ 0x0000#16 ∧ s.pc ≠ 0xFFFF#16 ∧
        step s = exec (decode (fetch s)) (s.setPc (s.pc + 1#16))) := by
  cases hr : s.run
  · exact .inl ⟨rfl, by simp [step, cycle, hr]⟩
  · by_cases hz : fetch s = 0x0000#16
    · exact .inr (.inl ⟨rfl, hz, by simp [step, cycle, hr, hz, exec, execStop0]⟩)
    · by_cases hp : s.pc = 0xFFFF#16
      · exact .inr (.inr (.inl ⟨rfl, hz, hp, by
          simp [step, cycle, hr, hz, advance_of_top s hp, raiseOutOfBounds]⟩))
      · exact .inr (.inr (.inr ⟨rfl, hz, hp, by
          simp [step, cycle, hr, hz, advance_of_lt s hp]⟩))

end Sys2Proof.Machine
end

