-- ==== Sys2Proof/Laws/Effect.lean ====
section
/-! SUPPORT. Everything an instruction's handler can do, said once: `exec` always answers a next state,
and that state is the given one after one of the shapes of `Effect`. Rules about all instructions are
read off it and do not unfold `exec`. -/

namespace Sys2Proof.Machine

/-- The destination of the seven instruction classes that end by `setcc` (R28). -/
def resultReg : Instr → Option Reg
  | .addReg dr .. | .addImm dr .. | .andReg dr .. | .andImm dr .. | .not dr .. | .ld dr ..
  | .ldi dr .. | .ldr dr .. | .lea dr .. => some dr
  | .stop0 | .br .. | .st .. | .str .. | .sti .. | .jsr .. | .jsrr .. | .ret | .jmp ..
  | .unknown8 .. | .unknownD .. | .halt | .trap .. => none

/-- The word a store that does not raise writes to. -/
def storeAddress (i : Instr) (s : State) : Option Word :=
  match i with
  | .st _ off => some (trunc16 (pcRel9 s off))
  | .str _ baseR off => some (trunc16 (baseOff6 s baseR off))
  | .sti _ off => some (s.mem.read (trunc16 (pcRel9 s off)))
  | _ => none

/-- The instructions that can end by a jump that saves nothing and goes on. -/
def plainJump : Instr → Bool
  | .br .. | .jmp .. | .ret => true
  | .trap v => decide (v ≠ Config.haltVector)
  | _ => false

/-- The shapes of what a handler does to its state. -/
inductive Effect (i : Instr) (s : State) : State → Prop where
  /-- A register result with the condition code from it. -/
  | result (dr : Reg) (v : Word) (hi : resultReg i = some dr) (hr : raisedValue i s = none) :
    Effect i s (s.writeBack dr v)
  /-- One memory word. -/
  | store (a v : Word) (hi : storeAddress i s = some a) (hr : raisedValue i s = none) :
    Effect i s (s.setMem a v)
  /-- A jump that saves nothing. -/
  | jump (a : Word) (hi : plainJump i = true) (hr : raisedValue i s = none) :
    Effect i s (s.setPc a)
  /-- A jump that saves the incremented pc in R7. -/
  | link (a : Word) (hi : (∃ off, i = .jsr off) ∨ ∃ baseR, i = .jsrr baseR)
      (hr : raisedValue i s = none) :
    Effect i s ((s.wr .r7 s.pc).setPc a)
  /-- Nothing: a branch not taken. -/
  | stay (hi : ∃ n z p off, i = .br n z p off) (hr : raisedValue i s = none) : Effect i s s
  /-- The out of bounds stop, with nothing written. -/
  | raise (v : Int) (hr : raisedValue i s = some v) : Effect i s (s.stopWith .outOfBounds)
  /-- HALT, by either of its names. -/
  | halt (hi : i = .halt ∨ i = .trap Config.haltVector) :
    Effect i s ((s.setPc 0x0025#16).stopWith .halt)
  /-- The zero word. -/
  | zeroWord (hi : i = .stop0) : Effect i s (s.stopWith .zeroWord)
  /-- An unknown opcode. -/
  | unknown (hi : (∃ rest, i = .unknown8 rest) ∨ ∃ rest, i = .unknownD rest) :
    Effect i s (s.stopWith .unknownOpcode)

theorem raisedValue_of_inRange {i : Instr} {s : State} {v : Int} (h : checkedValue i s = some v)
    (hv : InRange v) : raisedValue i s = none := by
  simp [raisedValue, h, hv]

theorem raisedValue_of_not_inRange {i : Instr} {s : State} {v : Int}
    (h : checkedValue i s = some v) (hv : ¬ InRange v) : raisedValue i s = some v := by
  simp only [raisedValue, h, if_neg hv]

theorem raisedValue_of_unchecked {i : Instr} {s : State} (h : checkedValue i s = none) :
    raisedValue i s = none := by
  simp [raisedValue, h]

/-- Every handler answers a next state by one of the shapes of `Effect`. -/
theorem exec_effect (i : Instr) (s : State) : ∃ t, exec i s = .next t ∧ Effect i s t := by
  cases i with
  | br n z p off =>
    rcases execBr_spec n z p off s with ⟨ht, he⟩ | ⟨ht, hr, he⟩ | ⟨ht, hr, he⟩
    · exact ⟨_, he, .stay ⟨n, z, p, off, rfl⟩ (raisedValue_of_unchecked (by simp [checkedValue, ht]))⟩
    · exact ⟨_, he, .jump _ rfl (raisedValue_of_inRange (by simp [checkedValue, ht]) hr)⟩
    · exact ⟨_, he, .raise _ (raisedValue_of_not_inRange (by simp [checkedValue, ht]) hr)⟩
  | ld dr off =>
    rcases loadFrom_spec dr (pcRel9 s off) s with ⟨hr, he⟩ | ⟨hr, he⟩
    · exact ⟨_, he, .result _ _ rfl (raisedValue_of_inRange rfl hr)⟩
    · exact ⟨_, he, .raise _ (raisedValue_of_not_inRange rfl hr)⟩
  | ldr dr baseR off =>
    rcases loadFrom_spec dr (baseOff6 s baseR off) s with ⟨hr, he⟩ | ⟨hr, he⟩
    · exact ⟨_, he, .result _ _ rfl (raisedValue_of_inRange rfl hr)⟩
    · exact ⟨_, he, .raise _ (raisedValue_of_not_inRange rfl hr)⟩
  | ldi dr off =>
    rcases execLdi_spec dr off s with ⟨hr, he⟩ | ⟨hr, he⟩
    · exact ⟨_, he, .result _ _ rfl (raisedValue_of_inRange rfl hr)⟩
    · exact ⟨_, he, .raise _ (raisedValue_of_not_inRange rfl hr)⟩
  | st sr off =>
    rcases storeTo_spec (pcRel9 s off) (s.rd sr) s with ⟨hr, he⟩ | ⟨hr, he⟩
    · exact ⟨_, he, .store _ _ rfl (raisedValue_of_inRange rfl hr)⟩
    · exact ⟨_, he, .raise _ (raisedValue_of_not_inRange rfl hr)⟩
  | str sr baseR off =>
    rcases storeTo_spec (baseOff6 s baseR off) (s.rd sr) s with ⟨hr, he⟩ | ⟨hr, he⟩
    · exact ⟨_, he, .store _ _ rfl (raisedValue_of_inRange rfl hr)⟩
    · exact ⟨_, he, .raise _ (raisedValue_of_not_inRange rfl hr)⟩
  | sti sr off =>
    rcases execSti_spec sr off s with ⟨hr, he⟩ | ⟨hr, he⟩
    · exact ⟨_, he, .store _ _ rfl (raisedValue_of_inRange rfl hr)⟩
    · exact ⟨_, he, .raise _ (raisedValue_of_not_inRange rfl hr)⟩
  | jsr off =>
    rcases jumpChecked_spec s (pcRel11 s off) (s.wr .r7 s.pc).setPc with ⟨hr, he⟩ | ⟨hr, he⟩
    · exact ⟨_, he, .link _ (.inl ⟨off, rfl⟩) (raisedValue_of_inRange rfl hr)⟩
    · exact ⟨_, he, .raise _ (raisedValue_of_not_inRange rfl hr)⟩
  | trap v =>
    by_cases hv : v = Config.haltVector
    · subst hv
      exact ⟨_, rfl, .halt (.inr rfl)⟩
    · exact ⟨s.setPc (vectorAddress v), by simp only [exec, execTrap, trapTo, if_neg hv],
        .jump _ (by simp [plainJump, hv]) rfl⟩
  | halt => exact ⟨_, rfl, .halt (.inl rfl)⟩
  | stop0 => exact ⟨_, rfl, .zeroWord rfl⟩
  | unknown8 rest => exact ⟨_, rfl, .unknown (.inl ⟨rest, rfl⟩)⟩
  | unknownD rest => exact ⟨_, rfl, .unknown (.inr ⟨rest, rfl⟩)⟩
  | jsrr baseR => exact ⟨_, rfl, .link _ (.inr ⟨baseR, rfl⟩) rfl⟩
  | ret => exact ⟨_, rfl, .jump _ rfl rfl⟩
  | jmp baseR => exact ⟨_, rfl, .jump _ rfl rfl⟩
  | addReg dr sr1 sr2 => exact ⟨_, rfl, .result _ _ rfl rfl⟩
  | addImm dr sr1 imm5 => exact ⟨_, rfl, .result _ _ rfl rfl⟩
  | andReg dr sr1 sr2 => exact ⟨_, rfl, .result _ _ rfl rfl⟩
  | andImm dr sr1 imm5 => exact ⟨_, rfl, .result _ _ rfl rfl⟩
  | not dr sr => exact ⟨_, rfl, .result _ _ rfl rfl⟩
  | lea dr off => exact ⟨_, rfl, .result _ _ rfl rfl⟩

/-- The inversion of `exec`: what an answered next state can be. -/
theorem effect_of_exec {i : Instr} {s t : State} (h : exec i s = .next t) : Effect i s t := by
  obtain ⟨t', he, ht⟩ := exec_effect i s
  rw [he] at h
  cases h
  exact ht

end Sys2Proof.Machine
end

