-- ==== Sys2Proof/Laws/Interface.lean ====
section
/-! SUPPORT. What placing an image does to memory, said once: the words of the image, every other word
and the canonical form; and that steps requested in Halted change nothing. -/

namespace Sys2Proof.Machine

/-- Every address outside the image reads as it read. -/
theorem Memory.get_place_other (image : List Word) (m : Memory) (a : Nat) {b : Nat}
    (h : b < a ∨ a + image.length ≤ b) : (m.place a image).get b = Memory.get m b := by
  induction image generalizing m a with
  | nil => rfl
  | cons w image ih =>
    simp only [List.length_cons] at h
    rw [Memory.place, ih _ _ (by omega), Memory.get_put_other _ _ (by omega)]

/-- Word `k` of the image is read at the start plus `k`. -/
theorem Memory.get_place (image : List Word) (m : Memory) (a : Nat) {k : Nat}
    (h : k < image.length) : (m.place a image).get (a + k) = image[k] := by
  induction image generalizing m a k with
  | nil => simp at h
  | cons w image ih =>
    cases k with
    | zero =>
      rw [Memory.place, Memory.get_place_other _ _ _ (by omega)]
      simp
    | succ k =>
      simp only [List.length_cons] at h
      rw [Memory.place, show a + (k + 1) = a + 1 + k by omega, ih _ _ (by omega)]
      rfl

/-- An image that fits keeps memory canonical. -/
theorem Memory.place_wf (image : List Word) {m : Memory} {a : Nat} (h : m.wf = true)
    (hl : a + image.length ≤ Config.memWords) : (m.place a image).wf = true := by
  induction image generalizing m a with
  | nil => exact h
  | cons w image ih =>
    simp only [List.length_cons] at hl
    exact ih (Memory.put_wf h (by omega) w) (by omega)

theorem load_of_fits (s : State) {start : Word} {image : List Word}
    (h : start.toNat + image.length ≤ 65536) :
    load s start image = some { s with mem := s.mem.place start.toNat image, pc := start } :=
  if_pos h

theorem load_of_not_fits (s : State) {start : Word} {image : List Word}
    (h : 65536 < start.toNat + image.length) : load s start image = none :=
  if_neg (Nat.not_le.mpr h)

theorem stepState_of_halted {s : State} (h : s.run = false) : stepState s = s := by
  simp [stepState, step, cycle, h]

theorem runToCompletion_of_halted (fuel : Nat) {s : State} (h : s.run = false) :
    runToCompletion fuel s = s := by
  cases fuel <;> simp [runToCompletion, h]

theorem runReports_of_halted (fuel : Nat) {s : State} (h : s.run = false) : runReports fuel s = [] := by
  cases fuel <;> simp [runReports, h]

theorem runToCompletion_succ (fuel : Nat) {s : State} (h : s.run = true) :
    runToCompletion (fuel + 1) s = runToCompletion fuel (stepState s) := by
  rw [runToCompletion, if_pos h]

theorem runReports_succ (fuel : Nat) {s : State} (h : s.run = true) :
    runReports (fuel + 1) s = stepReport s :: runReports fuel (stepState s) := by
  rw [runReports, if_pos h]

end Sys2Proof.Machine
end

