-- ==== Sys2Proof/Machine/Assembly.lean ====
section
/-! DEFINITION. The notation of the spec's listings (R110 to R112): the text of an instruction, and the
field a signed immediate is assembled to (R108). Text is no state and no meaning depends on it. -/

namespace Sys2Proof.Machine

/-- A signed immediate or offset as a field of `n` bits: `k mod 2^n` where `k` is in the range of the
field, nothing elsewhere (R86, R108). -/
def signedField (n : Nat) (k : Int) : Option (BitVec n) :=
  if -(2 ^ (n - 1) : Int) ≤ k ∧ k < 2 ^ (n - 1) then some (BitVec.ofInt n k) else none

/-- A hexadecimal digit. -/
def hexDigit (d : BitVec 4) : String :=
  match d.toNat with
  | 0 => "0" | 1 => "1" | 2 => "2" | 3 => "3" | 4 => "4" | 5 => "5" | 6 => "6" | 7 => "7"
  | 8 => "8" | 9 => "9" | 10 => "A" | 11 => "B" | 12 => "C" | 13 => "D" | 14 => "E" | _ => "F"

/-- A word as `0x` and four hexadecimal digits (R110). -/
def wordText (w : Word) : String :=
  "0x" ++ hexDigit (w.extractLsb' 12 4) ++ hexDigit (w.extractLsb' 8 4) ++
    hexDigit (w.extractLsb' 4 4) ++ hexDigit (w.extractLsb' 0 4)

/-- A trap vector, unsigned and in hexadecimal (R110). -/
def vectorText (v : BitVec 8) : String :=
  "0x" ++ hexDigit (v.extractLsb' 4 4) ++ hexDigit (v.extractLsb' 0 4)

/-- A register's name (R110). -/
def regText : Reg → String
  | .r0 => "R0" | .r1 => "R1" | .r2 => "R2" | .r3 => "R3"
  | .r4 => "R4" | .r5 => "R5" | .r6 => "R6" | .r7 => "R7"

/-- A signed immediate or offset: `#` and the signed value of the field in decimal (R110). -/
def immText {n : Nat} (v : BitVec n) : String := "#" ++ toString (sext v)

/-- The instruction as the spec's listings write it (R111, R112). A BR with no condition bit, the zero
word and the unknown words have no spelling: they stand in a listing as data words (R108, R110). -/
def assemblyText : Instr → String
  | .addReg dr sr1 sr2 => "ADD " ++ regText dr ++ "," ++ regText sr1 ++ "," ++ regText sr2
  | .addImm dr sr1 imm => "ADD " ++ regText dr ++ "," ++ regText sr1 ++ "," ++ immText imm
  | .andReg dr sr1 sr2 => "AND " ++ regText dr ++ "," ++ regText sr1 ++ "," ++ regText sr2
  | .andImm dr sr1 imm => "AND " ++ regText dr ++ "," ++ regText sr1 ++ "," ++ immText imm
  | .not dr sr => "NOT " ++ regText dr ++ "," ++ regText sr
  | .ld dr off => "LD " ++ regText dr ++ "," ++ immText off
  | .ldi dr off => "LDI " ++ regText dr ++ "," ++ immText off
  | .ldr dr baseR off => "LDR " ++ regText dr ++ "," ++ regText baseR ++ "," ++ immText off
  | .lea dr off => "LEA " ++ regText dr ++ "," ++ immText off
  | .st sr off => "ST " ++ regText sr ++ "," ++ immText off
  | .sti sr off => "STI " ++ regText sr ++ "," ++ immText off
  | .str sr baseR off => "STR " ++ regText sr ++ "," ++ regText baseR ++ "," ++ immText off
  | .br false false false off => ".FILL " ++ wordText (encode (.br false false false off))
  | .br n z p off =>
    "BR" ++ (if n then "n" else "") ++ (if z then "z" else "") ++ (if p then "p" else "") ++ " " ++
      immText off
  | .jmp baseR => "JMP " ++ regText baseR
  | .ret => "RET"
  | .jsr off => "JSR " ++ immText off
  | .jsrr baseR => "JSRR " ++ regText baseR
  | .trap v => "TRAP " ++ vectorText v
  | .halt => "HALT"
  | .stop0 => ".FILL 0x0000"
  | .unknown8 rest => ".FILL " ++ wordText (encode (.unknown8 rest))
  | .unknownD rest => ".FILL " ++ wordText (encode (.unknownD rest))

end Sys2Proof.Machine
end

