-- ==== Sys2Proof/Tests/Slice0.lean ====
section
/-! SUPPORT. Tests: well-formedness, one word written out bit by bit for every constructor, single
steps from spec/95_test_vectors.md (its ids in the comments), and for every statement with hypotheses a
theorem `witness_<Name>` that shows a state and operands meeting them, at the edges of their ranges. -/

namespace Sys2Proof.Tests

open Sys2Proof.Machine Sys2Proof.Claims

/-- The reset state with the pc at `pc` and the word `ir` there. -/
def placed (pc ir : Word) : State := placeWord { State.reset with pc } ir

/-- The reset state with the pc given, as a handler sees it. -/
def atPc (pc : Word) : State := { State.reset with pc }

/-! ## Well-formedness: one ill-formed term for each check -/

-- The word 0x0000 is the stop word and no BR (R101).
theorem test_wf_refuses_br_zero : (Instr.br false false false 0#9).wf = false := by decide
theorem test_wf_accepts_br_no_bits : (Instr.br false false false 1#9).wf = true := by decide
-- JMP R7 is RET (R103).
theorem test_wf_refuses_jmp_r7 : (Instr.jmp .r7).wf = false := by decide
-- TRAP 0x25 is HALT (R104).
theorem test_wf_refuses_trap_halt : (Instr.trap 0x25#8).wf = false := by decide
theorem test_wf_accepts_neighbours :
    (Instr.jmp .r6).wf = true ∧ (Instr.trap 0x24#8).wf = true ∧
      (Instr.br false false true 0#9).wf = true := by decide

/-! ## Decoding: words written out from the formats of R89 to R98 and the opcodes of R99 -/

theorem test_decode_stop0 : decodeWord 0b0000_0000_0000_0000#16 = .stop0 := by decide
-- R107: the decoder itself, which the engine never hands the zero word.
theorem test_decode_zero_word : decode 0x0000#16 = .br false false false 0#9 := by decide
theorem test_decode_br : decode 0b0000_001_111111101#16 = .br false false true 0x1FD#9 := by decide
theorem test_decode_br_bits : decode 0b0000_100_000000000#16 = .br true false false 0#9 ∧
    decode 0b0000_010_000000000#16 = .br false true false 0#9 ∧
    decode 0b0000_000_000000001#16 = .br false false false 1#9 := by decide
theorem test_decode_addReg : decode 0b0001_010_011_0_00_100#16 = .addReg .r2 .r3 .r4 := by decide
theorem test_decode_addImm : decode 0b0001_010_011_1_10001#16 = .addImm .r2 .r3 0x11#5 := by decide
theorem test_decode_ld : decode 0b0010_001_000000011#16 = .ld .r1 3#9 := by decide
theorem test_decode_st : decode 0b0011_100_000000100#16 = .st .r4 4#9 := by decide
theorem test_decode_jsr : decode 0b0100_1_10000000000#16 = .jsr 0x400#11 := by decide
theorem test_decode_jsrr : decode 0b0100_0_00_010_000000#16 = .jsrr .r2 := by decide
theorem test_decode_andReg : decode 0b0101_011_001_0_00_010#16 = .andReg .r3 .r1 .r2 := by decide
theorem test_decode_andImm : decode 0b0101_000_001_1_10000#16 = .andImm .r0 .r1 0x10#5 := by decide
theorem test_decode_ldr : decode 0b0110_001_110_111111#16 = .ldr .r1 .r6 0x3F#6 := by decide
theorem test_decode_str : decode 0b0111_000_010_000001#16 = .str .r0 .r2 1#6 := by decide
theorem test_decode_unknown8 : decode 0b1000_111100001111#16 = .unknown8 0xF0F#12 := by decide
theorem test_decode_not : decode 0b1001_001_000_111111#16 = .not .r1 .r0 := by decide
theorem test_decode_ldi : decode 0b1010_011_000000101#16 = .ldi .r3 5#9 := by decide
theorem test_decode_sti : decode 0b1011_000_000000110#16 = .sti .r0 6#9 := by decide
theorem test_decode_ret : decode 0b1100_000_111_000000#16 = .ret := by decide
theorem test_decode_jmp : decode 0b1100_000_011_000000#16 = .jmp .r3 := by decide
theorem test_decode_unknownD : decode 0b1101_000000000001#16 = .unknownD 1#12 := by decide
theorem test_decode_lea : decode 0b1110_010_000000110#16 = .lea .r2 6#9 := by decide
theorem test_decode_halt : decode 0b1111_0000_00100101#16 = .halt := by decide
theorem test_decode_trap : decode 0b1111_0000_00100011#16 = .trap 0x23#8 := by decide

-- Unused bits are ignored (R100, section 2.2 of the vectors).
theorem test_decode_unused_bits :
    decode 0x101B#16 = decode 0x1003#16 ∧ decode 0x9000#16 = decode 0x903F#16 ∧
      decode 0xCFFF#16 = .ret ∧ decode 0x46BF#16 = .jsrr .r2 ∧ decode 0xFF25#16 = .halt := by decide

-- The words the source's examples use (S2, S4, S5, S7), from the encoder.
theorem test_encode_words :
    encode (.addImm .r0 .r0 0x1F#5) = 0x103F#16 ∧ encode (.not .r1 .r0) = 0x923F#16 ∧
      encode (.br false false true 0x1FD#9) = 0x03FD#16 ∧ encode .halt = 0xF025#16 := by decide

theorem test_decodeTableWord :
    decodeTableWord 16 0x14C4 = some (.addReg .r2 .r3 .r4) ∧ decodeTableWord 16 0 = some .stop0 ∧
      decodeTableWord 16 0xD000 = some (.unknownD 0#12) := by decide

-- The first step after reset runs the placed instruction: 0x103F is ADD R0,R0,#-1.
theorem test_withFetchWord :
    (stepState (State.reset.withFetchWord 16 0x103F)).rd .r0 = 0xFFFF#16 := by decide

/-! ## Numbers (S1, section 2.1) -/

theorem test_sext : sext 0x11#5 = -15 ∧ sext 0x0F#5 = 15 ∧ sext 0x20#6 = -32 ∧ sext 0x1FD#9 = -3 ∧
    sext 0x400#11 = -1024 := by decide
theorem test_trunc16 : trunc16 (-1) = 0xFFFF#16 ∧ trunc16 65536 = 0x0000#16 ∧
    trunc16 (-239) = 0xFF11#16 ∧ trunc16 131070 = 0xFFFE#16 := by decide
-- S10.
theorem test_ccOf : ccOf 0x0000#16 = .z ∧ ccOf 0x0001#16 = .p ∧ ccOf 0x7FFF#16 = .p ∧
    ccOf 0x8000#16 = .n ∧ ccOf 0xFFFF#16 = .n := by decide

/-! ## Operate -/

/-- A word at 0x3000 run with two registers and a condition code set. -/
def operate (ir : Word) (r : Reg) (v : Word) (q : Reg) (u : Word) (cc : CC) : State :=
  stepState ({ placed 0x3000#16 ir with cc }.wr r v |>.wr q u)

-- O1.
theorem test_addReg_sign : let t := operate 0x14C4#16 .r3 0x7FFF#16 .r4 0x0001#16 .z
    t.rd .r2 = 0x8000#16 ∧ t.cc = .n ∧ t.pc = 0x3001#16 := by decide
-- O2: the destination is both sources and the sum wraps.
theorem test_addReg_wraps : let t := operate 0x1241#16 .r1 0x8000#16 .r0 0#16 .p
    t.rd .r1 = 0x0000#16 ∧ t.cc = .z ∧ t.run = true := by decide
-- S2.
theorem test_addImm_minus_one : let t := operate 0x103F#16 .r0 0#16 .r1 0#16 .z
    t.rd .r0 = 0xFFFF#16 ∧ t.cc = .n ∧ t.pc = 0x3001#16 := by decide
-- O7.
theorem test_addImm_sign_extends : let t := operate 0x1030#16 .r0 0x000F#16 .r1 0#16 .z
    t.rd .r0 = 0xFFFF#16 ∧ t.cc = .n := by decide
-- O10.
theorem test_andReg : let t := operate 0x5642#16 .r1 0xF0F0#16 .r2 0x3C3C#16 .z
    t.rd .r3 = 0x3030#16 ∧ t.cc = .p ∧ t.pc = 0x3001#16 := by decide
-- S3.
theorem test_andImm_zero : let t := operate 0x5020#16 .r0 0xFFFF#16 .r1 0#16 .n
    t.rd .r0 = 0x0000#16 ∧ t.cc = .z := by decide
-- O13.
theorem test_andImm_sign_extends : let t := operate 0x5070#16 .r1 0xABCD#16 .r2 0#16 .z
    t.rd .r0 = 0xABC0#16 ∧ t.cc = .n := by decide
-- S4.
theorem test_not : let t := operate 0x923F#16 .r0 0#16 .r2 0#16 .z
    t.rd .r1 = 0xFFFF#16 ∧ t.cc = .n := by decide
-- O16.
theorem test_not_positive : let t := operate 0x903F#16 .r0 0x8000#16 .r2 0#16 .z
    t.rd .r0 = 0x7FFF#16 ∧ t.cc = .p := by decide

/-! ## Loads -/

/-- The word `ir` at `pc` run with one register and one further memory word set. -/
def access (pc ir : Word) (r : Reg) (v : Word) (a w : Word) : State :=
  stepState (((placed pc ir).setMem a w).wr r v)

-- L1.
theorem test_ld : let t := access 0x3000#16 0x2203#16 .r7 0#16 0x3004#16 0x14A5#16
    t.rd .r1 = 0x14A5#16 ∧ t.cc = .p ∧ t.pc = 0x3001#16 := by decide
-- L4.
theorem test_ld_out_of_bounds : let s := placed 0x0010#16 0x2300#16
    (stepState s).stop = .outOfBounds ∧ (stepState s).pc = 0x0011#16 ∧
      stepReport s = .outOfBounds (-239) := by decide
-- S6.
theorem test_ldi :
    let t := stepState (((placed 0x3000#16 0xA000#16).setMem 0x3001#16 0x4000#16).setMem
      0x4000#16 0x1234#16)
    t.rd .r0 = 0x1234#16 ∧ t.cc = .p ∧ t.pc = 0x3001#16 := by decide
-- L8.
theorem test_ldi_out_of_bounds : let s := placed 0x0010#16 0xA100#16
    (stepState s).stop = .outOfBounds ∧ (stepState s).pc = 0x0011#16 ∧
      stepReport s = .outOfBounds (-239) := by decide
-- L10.
theorem test_ldr : let t := access 0x3000#16 0x63BF#16 .r6 0x4000#16 0x3FFF#16 0x8001#16
    t.rd .r1 = 0x8001#16 ∧ t.cc = .n := by decide
-- L13: the base plus offset address does not wrap.
theorem test_ldr_no_wrap : let s := (placed 0x3000#16 0x6041#16).wr .r1 0xFFFF#16
    (stepState s).stop = .outOfBounds ∧ (stepState s).rd .r0 = 0x0000#16 ∧
      stepReport s = .outOfBounds 65536 := by decide
-- L15.
theorem test_lea : let t := stepState (placed 0x3000#16 0xE406#16)
    t.rd .r2 = 0x3007#16 ∧ t.cc = .p ∧ t.pc = 0x3001#16 := by decide
-- L18: the address of LEA wraps and does not raise.
theorem test_lea_wraps : let t := stepState (placed 0x0010#16 0xE100#16)
    t.rd .r0 = 0xFF11#16 ∧ t.cc = .n ∧ t.run = true := by decide

/-! ## Stores -/

-- T1.
theorem test_st : let t := access 0x3003#16 0x3003#16 .r0 0x000E#16 0x0000#16 0x0000#16
    t.mem.read 0x3007#16 = 0x000E#16 ∧ t.cc = .z ∧ t.pc = 0x3004#16 := by decide
-- T4.
theorem test_st_out_of_bounds : let s := (placed 0xFFFE#16 0x3001#16).wr .r0 0x0001#16
    (stepState s).stop = .outOfBounds ∧ (stepState s).mem = s.mem ∧
      stepReport s = .outOfBounds 65536 := by decide
-- T6.
theorem test_sti : let t := access 0x3005#16 0xB003#16 .r0 0xFFFB#16 0x3009#16 0x4000#16
    t.mem.read 0x4000#16 = 0xFFFB#16 ∧ t.mem.read 0x3009#16 = 0x4000#16 ∧ t.pc = 0x3006#16 := by
  decide
-- T7: the pointer overwrites itself.
theorem test_sti_self : let t := access 0x3000#16 0xB000#16 .r0 0x1111#16 0x3001#16 0x3001#16
    t.mem.read 0x3001#16 = 0x1111#16 := by decide
-- T10: the source is also the base.
theorem test_str : let t := access 0x3000#16 0x7480#16 .r2 0x4000#16 0x0000#16 0x0000#16
    t.mem.read 0x4000#16 = 0x4000#16 ∧ t.pc = 0x3001#16 := by decide
-- T12.
theorem test_str_negative_offset :
    let t := stepState (((placed 0x3000#16 0x707F#16).wr .r0 0x0005#16).wr .r1 0xFFFF#16)
    t.mem.read 0xFFFE#16 = 0x0005#16 := by decide

/-! ## Control -/

-- B1 and B2.
theorem test_br : (stepState { placed 0x3005#16 0x03FD#16 with cc := .p }).pc = 0x3003#16 ∧
    (stepState (placed 0x3005#16 0x03FD#16)).pc = 0x3006#16 := by decide
-- B11 and B12.
theorem test_br_out_of_bounds : stepReport (placed 0x0005#16 0x0500#16) = .outOfBounds (-250) ∧
    (stepState { placed 0x0005#16 0x0500#16 with cc := .p }).pc = 0x0006#16 := by decide
-- B15.
theorem test_jmp : (access 0x3000#16 0xC0C0#16 .r3 0x4000#16 0#16 0#16).pc = 0x4000#16 := by decide
-- B16.
theorem test_ret : let t := access 0x3006#16 0xC1C0#16 .r7 0x3003#16 0#16 0#16
    t.pc = 0x3003#16 ∧ t.rd .r7 = 0x3003#16 := by decide
-- B22.
theorem test_jsr : let t := stepState (placed 0x0400#16 0x4C00#16)
    t.rd .r7 = 0x0401#16 ∧ t.pc = 0x0001#16 := by decide
-- B24.
theorem test_jsr_out_of_bounds : let s := (placed 0xFFF0#16 0x4BFF#16).wr .r7 0xAAAA#16
    (stepState s).rd .r7 = 0xAAAA#16 ∧ (stepState s).pc = 0xFFF1#16 ∧
      stepReport s = .outOfBounds 66544 := by decide
-- B25.
theorem test_jsrr : let t := access 0x3000#16 0x4080#16 .r2 0x5000#16 0#16 0#16
    t.rd .r7 = 0x3001#16 ∧ t.pc = 0x5000#16 := by decide
-- B26.
theorem test_jsrr_r7 : let t := access 0x3000#16 0x41C0#16 .r7 0x5000#16 0#16 0#16
    t.rd .r7 = 0x3001#16 ∧ t.pc = 0x3001#16 := by decide

/-! ## TRAP, HALT and the stops -/

-- H1.
theorem test_trap : let t := access 0x3000#16 0xF023#16 .r7 0x7777#16 0#16 0#16
    t.pc = 0x0023#16 ∧ t.run = true ∧ t.rd .r7 = 0x7777#16 := by decide
-- H2.
theorem test_trap_zero_extends : (stepState (placed 0x3000#16 0xF0FF#16)).pc = 0x00FF#16 := by decide
-- H4.
theorem test_halt : let t := access 0x3000#16 0xF025#16 .r7 0x7777#16 0#16 0#16
    t.pc = 0x0025#16 ∧ t.run = false ∧ t.stop = .halt ∧ t.rd .r7 = 0x7777#16 := by decide
-- E1 and E2.
theorem test_zero_word : let t := stepState (atPc 0x3000#16)
    t.pc = 0x3000#16 ∧ t.run = false ∧ t.stop = .zeroWord := by decide
theorem test_zero_word_at_top : (stepState (atPc 0xFFFF#16)).stop = .zeroWord := by decide
-- E3 and E4.
theorem test_advance_past_the_top :
    (stepState (placed 0xFFFF#16 0xF025#16)).stop = .outOfBounds ∧
      (stepState (placed 0xFFFF#16 0xD000#16)).stop = .outOfBounds ∧
      stepReport (placed 0xFFFF#16 0xF025#16) = .outOfBounds 65536 := by decide
-- E6.
theorem test_unknown8 : let s := placed 0x3000#16 0x8000#16
    (stepState s).pc = 0x3001#16 ∧ (stepState s).stop = .unknownOpcode ∧
      stepReport s = .unknownOpcode 0x8000#16 := by decide
-- E7.
theorem test_unknownD : let s := placed 0x3000#16 0xDFFF#16
    (stepState s).pc = 0x3001#16 ∧ (stepState s).run = false ∧
      stepReport s = .unknownOpcode 0xDFFF#16 := by decide
-- E9.
theorem test_stop_request : let t := stopRequest (atPc 0x3004#16)
    t.run = false ∧ t.stop = .operatorStop ∧ t.pc = 0x3004#16 := by decide
-- E10.
theorem test_patch_reg : let t := patchReg State.reset .r1 0x8000#16
    t.rd .r1 = 0x8000#16 ∧ t.cc = .z := by decide
-- P1: load and run to completion.
theorem test_load_and_run : (loaded 0x3000#16 [0xF025#16]).map
    (fun s => ((runToCompletion 1 s).pc, (runToCompletion 1 s).run, (runToCompletion 1 s).cc)) =
      some (0x0025#16, false, .z) := by decide
-- P6b: the reports of a run, the last with the unknown word.
theorem test_run_reports : (loaded 0x3000#16 [0x1021#16, 0xD123#16]).map (runReports 5) =
    some [.executed (.addImm .r0 .r0 1#5), .unknownOpcode 0xD123#16] := by decide
-- R334: the window is clipped at both ends.
theorem test_dump_window : dumpWindow 0x0001#16 = [0, 1, 2, 3, 4, 5] ∧
    dumpWindow 0xFFFF#16 = [65531, 65532, 65533, 65534, 65535] ∧
    dumpWindow 0x3000#16 = [12284, 12285, 12286, 12287, 12288, 12289, 12290, 12291, 12292] := by
  decide
-- R251: the codes of the stop causes.
theorem test_stop_codes : StopCause.none.code = 0#3 ∧ StopCause.halt.code = 1#3 ∧
    StopCause.zeroWord.code = 2#3 ∧ StopCause.unknownOpcode.code = 3#3 ∧
    StopCause.outOfBounds.code = 4#3 ∧ StopCause.operatorStop.code = 5#3 := by decide
-- R340: the trace event of STI has both addresses and the value stored.
theorem test_trace_event :
    (traceEvent (((placed 0x3005#16 0xB003#16).setMem 0x3009#16 0x4000#16).wr .r0 0xFFFB#16)).map
      (fun e => (e.address, e.effective, e.written)) =
      some (0x3005#16, [0x3009, 0x4000], some 0xFFFB#16) := by decide

-- R110 to R112, with words of section 2.2.
theorem test_assembly_text : assemblyText (decode 0x103F#16) = "ADD R0,R0,#-1" ∧
    assemblyText (decode 0x03FD#16) = "BRp #-3" ∧ assemblyText (decode 0xC1C0#16) = "RET" ∧
    assemblyText (decode 0xF023#16) = "TRAP 0x23" ∧ assemblyText (decode 0xD123#16) = ".FILL 0xD123" := by
  decide
-- R86 and R108: the ranges of the signed fields.
theorem test_signed_field : signedField 5 (-16) = some 0x10#5 ∧ signedField 5 15 = some 0x0F#5 ∧
    signedField 5 16 = none ∧ signedField 9 (-257) = none ∧ signedField 9 (-3) = some 0x1FD#9 := by
  decide

/-! ## Witnesses of the statements' hypotheses -/

theorem witness_DecodeOfEncodeIsTheInstruction :
    Instr.stop0.wf = true ∧ (Instr.addImm .r7 .r0 0x1F#5).wf = true ∧ (Instr.br false false false 0x100#9).wf = true ∧
      (Instr.jmp .r6).wf = true ∧ (Instr.trap 0xFF#8).wf = true := by decide
theorem witness_EncodeOfDecodeOnCanonicalWords :
    0x1003#16 &&& unusedMask (decode 0x1003#16) = unusedFill (decode 0x1003#16) ∧
      0x903F#16 &&& unusedMask (decode 0x903F#16) = unusedFill (decode 0x903F#16) ∧
      0x101B#16 &&& unusedMask (decode 0x101B#16) ≠ unusedFill (decode 0x101B#16) ∧
      0x9000#16 &&& unusedMask (decode 0x9000#16) ≠ unusedFill (decode 0x9000#16) := by decide
theorem witness_UnusedBitsAreIgnored :
    0x0018#16 &&& unusedMask (decode 0x1003#16) = 0x0018#16 ∧
      0x0018#16 &&& unusedMask (decode 0x5642#16) = 0x0018#16 ∧
      0x003F#16 &&& unusedMask (decode 0x9000#16) = 0x003F#16 ∧
      0x0E3F#16 &&& unusedMask (decode 0xC0C0#16) = 0x0E3F#16 ∧
      0x0E3F#16 &&& unusedMask (decode 0xC1C0#16) = 0x0E3F#16 ∧
      0x063F#16 &&& unusedMask (decode 0x4080#16) = 0x063F#16 ∧
      0x0F00#16 &&& unusedMask (decode 0xF023#16) = 0x0F00#16 ∧
      0x0F00#16 &&& unusedMask (decode 0xF025#16) = 0x0F00#16 := by decide
theorem witness_OnlyTheZeroWordIsTheStopWord :
    (0x0001#16).extractLsb' 12 4 = 0x0#4 ∧ 0x0001#16 ≠ 0x0000#16 ∧
      (0x0FFF#16).extractLsb' 12 4 = 0x0#4 ∧ decodeWord 0x0000#16 = .stop0 := by decide
theorem witness_DecoderGivesTheZeroWordAHarmlessBr : 0x0001#16 ≠ 0x0000#16 := by decide
theorem witness_SignExtensionOfAField :
    0 < 5 ∧ (0x10#5).getLsbD 4 = true ∧ (0x0F#5).getLsbD 4 = false ∧ (0x1F#5).getLsbD 4 = true ∧
      (0x0#1).getLsbD 0 = false := by decide
theorem witness_ConditionCodeOfAStoredValue :
    (0x0000#16).toNat = 0 ∧ 0x8000 ≤ (0x8000#16).toNat ∧ 0x8000 ≤ (0xFFFF#16).toNat ∧
      0x0001 ≤ (0x0001#16).toNat ∧ (0x7FFF#16).toNat ≤ 0x7FFF := by decide
theorem witness_MemoryPrimitives : OutOfRange (-1) ∧ OutOfRange 65536 ∧ ¬ OutOfRange 0 ∧
    ¬ OutOfRange 65535 ∧ 0xFFFF#16 ≠ 0x0000#16 := by
  unfold OutOfRange
  decide
theorem witness_StepInHaltedDoesNothing : (stopRequest State.reset).run = false := by decide
theorem witness_ZeroWordStopsTheRun :
    State.reset.run = true ∧ State.reset.mem.read State.reset.pc = 0x0000#16 ∧
      (atPc 0xFFFF#16).mem.read (atPc 0xFFFF#16).pc = 0x0000#16 := by decide
theorem witness_StepRunsTheDecodedInstruction :
    (placed 0xFFFE#16 0x5020#16).run = true ∧
      decode ((placed 0xFFFE#16 0x5020#16).mem.read 0xFFFE#16) = .andImm .r0 .r0 0#5 ∧
      (placed 0xFFFE#16 0x5020#16).pc ≠ 0xFFFF#16 ∧
      (placed 0xFFFE#16 0x5020#16).mem.read 0xFFFE#16 ≠ 0x0000#16 ∧
      (placed 0xFFFF#16 0xF025#16).mem.read 0xFFFF#16 ≠ 0x0000#16 ∧
      decode ((placed 0xFFFF#16 0xF025#16).mem.read 0xFFFF#16) = .halt ∧
      (placed 0xFFFF#16 0xF025#16).pc = 0xFFFF#16 := by decide
theorem witness_UnknownOpcodeStopsTheRun :
    (placed 0xFFFE#16 0x8000#16).run = true ∧ (placed 0xFFFE#16 0x8000#16).pc ≠ 0xFFFF#16 ∧
      ((placed 0xFFFE#16 0x8000#16).mem.read 0xFFFE#16).extractLsb' 12 4 = 0x8#4 ∧
      ((placed 0x3000#16 0xDFFF#16).mem.read 0x3000#16).extractLsb' 12 4 = 0xD#4 := by decide
theorem witness_ReportAgreesWithTheStateAfter :
    let s := placed 0x3000#16 0x1021#16
    s.run = true ∧ s.stop = .none ∧ step s = .next (stepState s) := ⟨rfl, rfl, rfl⟩

/-! Words an instruction's first clause is about, and for an address both ends of memory and one past
each: 0, 65,535, -1 and 65,536. -/

theorem witness_AddRegisterForm :
    (0x1000#16).extractLsb' 12 4 = 0x1#4 ∧ (0x1000#16).getLsbD 5 = false ∧
      (0x1FDF#16).extractLsb' 12 4 = 0x1#4 ∧ (0x1FDF#16).getLsbD 5 = false := by decide
theorem witness_AddImmediateForm :
    (0x1020#16).extractLsb' 12 4 = 0x1#4 ∧ (0x1020#16).getLsbD 5 = true ∧
      (0x1FFF#16).extractLsb' 12 4 = 0x1#4 ∧ (0x1FFF#16).getLsbD 5 = true := by decide
theorem witness_AndRegisterForm :
    (0x5000#16).extractLsb' 12 4 = 0x5#4 ∧ (0x5000#16).getLsbD 5 = false ∧
      (0x5FDF#16).extractLsb' 12 4 = 0x5#4 ∧ (0x5FDF#16).getLsbD 5 = false := by decide
theorem witness_AndImmediateForm :
    (0x5020#16).extractLsb' 12 4 = 0x5#4 ∧ (0x5020#16).getLsbD 5 = true ∧
      (0x5FFF#16).extractLsb' 12 4 = 0x5#4 ∧ (0x5FFF#16).getLsbD 5 = true := by decide
theorem witness_NotComplements :
    (0x9000#16).extractLsb' 12 4 = 0x9#4 ∧ (0x9FFF#16).extractLsb' 12 4 = 0x9#4 := by decide
theorem witness_LdLoadsPcRelative :
    (0x2203#16).extractLsb' 12 4 = 0x2#4 ∧
      ((0x0000#16).toNat : Int) = pcRel9 (atPc 0x0100#16) 0x100#9 ∧
      ((0xFFFF#16).toNat : Int) = pcRel9 (atPc 0xFF00#16) 0x0FF#9 ∧
      OutOfRange (pcRel9 (atPc 0x00FF#16) 0x100#9) ∧
      OutOfRange (pcRel9 (atPc 0xFF01#16) 0x0FF#9) := by
  unfold OutOfRange
  decide
theorem witness_LdiLoadsThroughAPointer :
    (0xA000#16).extractLsb' 12 4 = 0xA#4 ∧
      ((0x0000#16).toNat : Int) = pcRel9 (atPc 0x0100#16) 0x100#9 ∧
      ((0xFFFF#16).toNat : Int) = pcRel9 (atPc 0xFF00#16) 0x0FF#9 ∧
      OutOfRange (pcRel9 (atPc 0x00FF#16) 0x100#9) ∧
      OutOfRange (pcRel9 (atPc 0xFF01#16) 0x0FF#9) := by
  unfold OutOfRange
  decide
theorem witness_LdrLoadsBaseOffset :
    (0x63BF#16).extractLsb' 12 4 = 0x6#4 ∧
      ((0x0000#16).toNat : Int) = baseOff6 (State.reset.wr .r1 0x0020#16) .r1 0x20#6 ∧
      ((0xFFFF#16).toNat : Int) = baseOff6 (State.reset.wr .r1 0xFFE0#16) .r1 0x1F#6 ∧
      OutOfRange (baseOff6 State.reset .r1 0x3F#6) ∧
      OutOfRange (baseOff6 (State.reset.wr .r1 0xFFFF#16) .r1 1#6) := by
  unfold OutOfRange
  decide
theorem witness_LeaStoresTheWrappedAddress : (0xE406#16).extractLsb' 12 4 = 0xE#4 := by decide
theorem witness_StStoresPcRelative :
    (0x3804#16).extractLsb' 12 4 = 0x3#4 ∧
      ((0x0000#16).toNat : Int) = pcRel9 (atPc 0x0100#16) 0x100#9 ∧
      ((0xFFFF#16).toNat : Int) = pcRel9 (atPc 0xFF00#16) 0x0FF#9 ∧
      OutOfRange (pcRel9 (atPc 0x00FF#16) 0x100#9) ∧
      OutOfRange (pcRel9 (atPc 0xFF01#16) 0x0FF#9) := by
  unfold OutOfRange
  decide
theorem witness_StiStoresThroughAPointer :
    (0xB006#16).extractLsb' 12 4 = 0xB#4 ∧
      ((0x0000#16).toNat : Int) = pcRel9 (atPc 0x0100#16) 0x100#9 ∧
      ((0xFFFF#16).toNat : Int) = pcRel9 (atPc 0xFF00#16) 0x0FF#9 ∧
      OutOfRange (pcRel9 (atPc 0x00FF#16) 0x100#9) ∧
      OutOfRange (pcRel9 (atPc 0xFF01#16) 0x0FF#9) := by
  unfold OutOfRange
  decide
theorem witness_StrStoresBaseOffset :
    (0x7081#16).extractLsb' 12 4 = 0x7#4 ∧
      ((0x0000#16).toNat : Int) = baseOff6 (State.reset.wr .r1 0x0020#16) .r1 0x20#6 ∧
      ((0xFFFF#16).toNat : Int) = baseOff6 (State.reset.wr .r1 0xFFE0#16) .r1 0x1F#6 ∧
      OutOfRange (baseOff6 State.reset .r1 0x3F#6) ∧
      OutOfRange (baseOff6 (State.reset.wr .r1 0xFFFF#16) .r1 1#6) := by
  unfold OutOfRange
  decide
theorem witness_BrBranchesOnTheConditionCode :
    ((0x0001#16).extractLsb' 12 4 = 0x0#4 ∧ 0x0001#16 ≠ 0x0000#16) ∧
      ¬ Taken false false false .z ∧ ¬ Taken true false true .z ∧ Taken true false false .n ∧
      Taken false true false (atPc 0x0100#16).cc ∧ Taken false false true .p ∧
      ((0x0000#16).toNat : Int) = pcRel9 (atPc 0x0100#16) 0x100#9 ∧
      ((0xFFFF#16).toNat : Int) = pcRel9 (atPc 0xFF00#16) 0x0FF#9 ∧
      OutOfRange (pcRel9 (atPc 0x00FF#16) 0x100#9) ∧
      OutOfRange (pcRel9 (atPc 0xFF01#16) 0x0FF#9) := by
  unfold OutOfRange Taken
  decide
theorem witness_JmpGoesToTheBaseRegister :
    (0xC000#16).extractLsb' 12 4 = 0xC#4 ∧ (0xC000#16).extractLsb' 6 3 ≠ 0b111#3 ∧
      (0xCFBF#16).extractLsb' 12 4 = 0xC#4 ∧ (0xCFBF#16).extractLsb' 6 3 ≠ 0b111#3 := by decide
theorem witness_RetIsJmpThroughR7 :
    (0xC1C0#16).extractLsb' 12 4 = 0xC#4 ∧ (0xC1C0#16).extractLsb' 6 3 = 0b111#3 ∧
      (0xCFFF#16).extractLsb' 12 4 = 0xC#4 ∧ (0xCFFF#16).extractLsb' 6 3 = 0b111#3 := by decide
theorem witness_JsrLinksAndJumps :
    ((0x4802#16).extractLsb' 12 4 = 0x4#4 ∧ (0x4802#16).getLsbD 11 = true) ∧
      ((0x0000#16).toNat : Int) = pcRel11 (atPc 0x0400#16) 0x400#11 ∧
      ((0xFFFF#16).toNat : Int) = pcRel11 (atPc 0xFC00#16) 0x3FF#11 ∧
      OutOfRange (pcRel11 (atPc 0x03FF#16) 0x400#11) ∧
      OutOfRange (pcRel11 (atPc 0xFC01#16) 0x3FF#11) := by
  unfold OutOfRange
  decide
theorem witness_JsrrLinksThenReadsTheBase :
    ((0x4080#16).extractLsb' 12 4 = 0x4#4 ∧ (0x4080#16).getLsbD 11 = false) ∧
      Reg.r6 ≠ Reg.r7 ∧ Reg.r7 = Reg.r7 := by decide
theorem witness_TrapJumpsToTheVector :
    ((0xF023#16).extractLsb' 12 4 = 0xF#4 ∧ (0xF023#16).extractLsb' 0 8 ≠ 0x25#8) ∧
      0x24#8 ≠ 0x25#8 ∧ 0x26#8 ≠ 0x25#8 ∧ 0xFF#8 ≠ 0x25#8 := by decide
theorem witness_HaltEndsTheRun :
    ((0xFF25#16).extractLsb' 12 4 = 0xF#4 ∧ (0xFF25#16).extractLsb' 0 8 = 0x25#8) ∧
      (placed 0xFFFE#16 0xF025#16).run = true ∧ (placed 0xFFFE#16 0xF025#16).pc ≠ 0xFFFF#16 ∧
      decode ((placed 0xFFFE#16 0xF025#16).mem.read 0xFFFE#16) = .halt := by decide

/-! The rules of the whole machine. -/

theorem witness_OnlySevenClassesWriteTheConditionCode :
    SetsCc (.lea .r2 6#9) = some .r2 ∧ SetsCc (.st .r2 6#9) = none ∧ SetsCc .stop0 = none ∧
      (∃ t, exec (.lea .r2 6#9) State.reset = .next t) ∧
      ∃ t, exec (.ld .r2 0x1FF#9) State.reset = .next t ∧
        t = { State.reset with run := false, stop := .outOfBounds } :=
  ⟨rfl, rfl, rfl, ⟨_, rfl⟩, ⟨_, rfl, rfl⟩⟩
theorem witness_InstructionsWriteOnlyTheirRegister :
    (∃ t, exec (.jsrr .r2) State.reset = .next t) ∧ ¬ WritesReg (.jsrr .r2) .r2 ∧
      ¬ WritesReg (.addReg .r1 .r2 .r3) .r7 ∧ ¬ WritesReg (.st .r1 0#9) .r1 := by
  refine ⟨⟨_, rfl⟩, ?_, ?_, ?_⟩ <;> simp [WritesReg, SetsCc]
theorem witness_OnlyStoresChangeMemory :
    (∃ t, exec (.st .r1 0#9) (atPc 0x3001#16) = .next t) ∧
      StoresTo (.st .r1 0#9) (atPc 0x3001#16) 0x3001#16 ∧
      ¬ StoresTo (.st .r1 0#9) (atPc 0x3001#16) 0x3000#16 ∧
      ¬ StoresTo (.ld .r1 0#9) (atPc 0x3001#16) 0x3001#16 := by
  refine ⟨⟨_, rfl⟩, ?_, ?_, ?_⟩ <;> unfold StoresTo <;> decide
theorem witness_OutOfBoundsIsRaisedExactlyAtTheListedPlaces :
    (placed 0x0010#16 0x2300#16).run = true ∧ (placed 0x0010#16 0x2300#16).stop = .none ∧
      (∃ t, step (placed 0x0010#16 0x2300#16) = .next t ∧ t.stop = .outOfBounds) ∧
      Raises (placed 0x0010#16 0x2300#16) (-239) ∧ Raises (placed 0xFFFF#16 0xF025#16) 65536 ∧
      ¬ Raises (placed 0xFFFF#16 0x0000#16) 65536 := by
  refine ⟨rfl, rfl, ⟨_, rfl, rfl⟩, ?_, ?_, ?_⟩
  · refine ⟨by decide, .inr ⟨by decide, .inl (by decide), ?_⟩⟩
    rw [show decode ((placed 0x0010#16 0x2300#16).mem.read (placed 0x0010#16 0x2300#16).pc) =
      .ld .r1 0x100#9 by decide]
    show (-239 : Int) = _
    decide
  · exact ⟨by decide, .inl (by decide)⟩
  · exact fun h => h.1 (by decide)
theorem witness_StateLeftByEachStop :
    (∃ t, step State.reset = .next t ∧ t.run = false ∧ t.stop = .zeroWord) ∧
      (∃ t, step (placed 0x3000#16 0xF025#16) = .next t ∧ t.run = false ∧ t.stop = .halt) ∧
      (∃ t, step (placed 0x3000#16 0xD000#16) = .next t ∧ t.run = false ∧ t.stop = .unknownOpcode) ∧
      (∃ t, step (placed 0x0010#16 0x2300#16) = .next t ∧ t.run = false ∧ t.stop = .outOfBounds) ∧
      (∃ t, step (placed 0xFFFF#16 0x2300#16) = .next t ∧ t.run = false ∧ t.stop = .outOfBounds) :=
  ⟨⟨_, rfl, rfl, rfl⟩, ⟨_, rfl, rfl, rfl⟩, ⟨_, rfl, rfl, rfl⟩, ⟨_, rfl, rfl, rfl⟩, ⟨_, rfl, rfl, rfl⟩⟩
theorem witness_StopIsFinalUntilReset :
    (stopRequest State.reset).run = false ∧ HostOp.step ≠ .reset ∧ HostOp.run 3 ≠ .reset ∧
      HostOp.load 0#16 [] ≠ .reset := by decide

/-- A state with registers, memory and a condition code of its own that meets the invariant. -/
def busy : State :=
  { ((placed 0x3000#16 0x3203#16).setMem 0xFFFF#16 0x1234#16).wr .r1 0xBEEF#16 with cc := .n }

theorem witness_EveryStepKeepsTheInvariant :
    busy.Inv ∧ (stopRequest busy).Inv ∧ ∃ t, step busy = .next t :=
  ⟨⟨by decide, by decide⟩, ⟨by decide, by decide⟩, ⟨_, rfl⟩⟩
theorem witness_EveryHostOperationKeepsTheInvariant :
    (Session.mk busy true).machine.Inv ∧ Session.created.machine.Inv :=
  ⟨⟨by decide, by decide⟩, ⟨by decide, by decide⟩⟩

theorem witness_LoadPlacesTheImage :
    (0xFFFE#16).toNat + [1#16, 2#16].length ≤ 65536 ∧ (0#16).toNat + ([] : List Word).length ≤ 65536 ∧
      1 < [1#16, 2#16].length ∧ (0xFFFF#16).toNat = (0xFFFE#16).toNat + 1 ∧
      (0xFFFD#16).toNat < (0xFFFE#16).toNat := by decide
theorem witness_HostStepIsTheStepOfTheMachine :
    (∃ t, step Session.created.machine = .next t ∧ t.run = false) ∧
      ∃ t, step (Session.mk busy false).machine = .next t ∧ t.run = true := ⟨⟨_, rfl, rfl⟩, ⟨_, rfl, rfl⟩⟩
theorem witness_RunIsTheRepetitionOfStep :
    Session.created.machine.run = true ∧ (Session.created.apply .stopRequest).1.machine.run = false ∧
      (Session.created.apply (.run 1)).1.machine.run = false ∧ Session.created.machine.Inv :=
  ⟨by decide, by decide, by decide, by decide, by decide⟩
theorem witness_LoadPastTheTopIsRefusedWhole :
    65536 < (0xFFFF#16).toNat + [1#16, 2#16].length ∧ Session.created.machine.run = true ∧
      Session.created.stepped = false := by decide
theorem witness_LoadIsAcceptedOnlyBeforeTheFirstStep :
    (Session.created.apply .step).1.stepped = true ∧
      (Session.created.apply .stopRequest).1.machine.run = false ∧
      Session.created.stepped = false ∧ Session.created.machine.run = true ∧
      HostOp.writeReg .r0 1#16 ≠ .reset ∧ HostOp.stopRequest ≠ .step ∧ HostOp.stopRequest ≠ .run 1 ∧
      (Session.mk busy true).stepped = true ∧
      (0xFFFF#16).toNat + [0xF025#16].length ≤ 65536 := by decide
theorem witness_HostCannotPatchControlState :
    HostOp.writeReg .r0 1#16 ≠ .reset ∧ HostOp.writeReg .r0 1#16 ≠ .step ∧
      (∀ fuel, HostOp.writeReg .r0 1#16 ≠ .run fuel) ∧
      (∀ start image, HostOp.stopRequest ≠ .load start image) ∧
      HostOp.load 0#16 [] ≠ .stopRequest := by
  simp
theorem witness_StopRequestStopsAReadyMachine :
    State.reset.run = true ∧ (stopRequest State.reset).run = false := by decide

end Sys2Proof.Tests
end

section
/-!
Sign-extended fields of every width: the value of `sext` by bit `N-1` (R8), and its range.
-/
namespace Sys2Proof.Machine

theorem sext_of_signBit_set {n : Nat} {v : BitVec n} (h : v.getLsbD (n - 1) = true) :
    sext v = (v.toNat : Int) - 2 ^ n := by
  rw [sext, BitVec.msb_eq_getLsbD_last, if_pos h]

theorem sext_of_signBit_clear {n : Nat} {v : BitVec n} (h : v.getLsbD (n - 1) = false) :
    sext v = (v.toNat : Int) := by
  rw [sext, BitVec.msb_eq_getLsbD_last, if_neg (Bool.eq_false_iff.mp h)]

theorem neg_two_pow_le_sext {n : Nat} (v : BitVec n) : -(2 ^ (n - 1) : Int) ≤ sext v := by
  rw [sext_eq_toInt]
  exact v.le_toInt

theorem sext_le_two_pow_sub_one {n : Nat} (v : BitVec n) : sext v ≤ 2 ^ (n - 1) - 1 := by
  rw [sext_eq_toInt]
  exact BitVec.toInt_le

/-- Settles O9: the value by the sign bit (R8), the range from the two's complement reading. -/
theorem signExtensionOfAField : Obligations.SignExtensionOfAField := by
  unfold Obligations.SignExtensionOfAField
  refine ⟨fun n v _ => ?values, ?source⟩
  case values =>
    exact ⟨sext_of_signBit_set, sext_of_signBit_clear, neg_two_pow_le_sext v,
      sext_le_two_pow_sub_one v⟩
  case source => decide

end Sys2Proof.Machine
end

section
/-!
The condition code of a stored value by its unsigned ranges (R29).
-/
namespace Sys2Proof.Machine

variable {v : Word}

/-- Bit 15, which `ccOf` reads as the sign, splits the words at 0x8000. -/
theorem signBit_eq_decide_le_toNat (v : Word) : v.getLsbD 15 = decide (0x8000 ≤ v.toNat) := by
  rw [← v.msb_eq_getLsbD_last, BitVec.msb_eq_decide]

theorem ccOf_eq_z (h : v.toNat = 0) : ccOf v = .z :=
  if_pos (BitVec.eq_of_toNat_eq h)

theorem ccOf_eq_n (h : 0x8000 ≤ v.toNat) : ccOf v = .n := by
  have hne : v ≠ 0x0000#16 := by bv_omega
  rw [ccOf, if_neg hne, signBit_eq_decide_le_toNat, if_pos (decide_eq_true h)]

theorem ccOf_eq_p (hlo : 0x0001 ≤ v.toNat) (hhi : v.toNat ≤ 0x7FFF) : ccOf v = .p := by
  have hne : v ≠ 0x0000#16 := by bv_omega
  have hsign : ¬ 0x8000 ≤ v.toNat := by omega
  rw [ccOf, if_neg hne, signBit_eq_decide_le_toNat, if_neg (by simpa using hsign)]

theorem State.setcc_eq_of_ccOf {c : CC} (s : State) (h : ccOf v = c) :
    s.setcc v = { s with cc := c } := by
  rw [State.setcc, h]

/-- Settles O11: each unsigned range fixes `ccOf`, and `setcc` writes that and nothing else. -/
theorem conditionCodeOfAStoredValue : Obligations.ConditionCodeOfAStoredValue := by
  unfold Obligations.ConditionCodeOfAStoredValue
  intro s v
  refine ⟨fun hzero => ?z, fun hneg => ?n, fun hlo hhi => ?p⟩
  case z => exact s.setcc_eq_of_ccOf (ccOf_eq_z hzero)
  case n => exact s.setcc_eq_of_ccOf (ccOf_eq_n hneg)
  case p => exact s.setcc_eq_of_ccOf (ccOf_eq_p hlo hhi)

end Sys2Proof.Machine
end

section
/-!
The read and write primitives at every exact address (R55): what a store changes and what it leaves
unchanged, and the address check as the obligations spell it.
-/
namespace Sys2Proof.Machine

open Sys2Proof.Claims

theorem outOfRange_iff_not_inRange {a : Int} : OutOfRange a ↔ ¬ InRange a := by
  unfold OutOfRange InRange
  omega

theorem State.storedAt_setMem (s : State) (a v : Word) : StoredAt a v s (s.setMem a v) := by
  unfold StoredAt
  refine ⟨?stored, ?otherWords, s.rd_setMem a v, s.setMem_cc a v, s.setMem_pc a v, ?control⟩
  case stored => exact s.mem.read_write_same a v
  case otherWords => exact fun _ hne => s.mem.read_write_other v hne
  case control => exact ⟨s.setMem_run a v, s.setMem_stop a v⟩

/-- Settles O12: outside the range both checks fail; at a word's address the write is `setMem`. -/
theorem memoryPrimitives : Obligations.MemoryPrimitives := by
  unfold Obligations.MemoryPrimitives
  intro s v
  refine ⟨fun addr hout => ?raises, fun a => ?completes⟩
  case raises =>
    have hnot : ¬ InRange addr := outOfRange_iff_not_inRange.mp hout
    exact ⟨memRead_of_not_inRange s hnot, memWrite_of_not_inRange s v hnot⟩
  case completes =>
    exact ⟨memRead_word s a, s.setMem a v, memWrite_word s a v, s.storedAt_setMem a v⟩

end Sys2Proof.Machine
end

section
/-!
Flipping the bits `m` of a word, all inside `mask`: a field that `mask` does not meet is read as
before.
-/
namespace Sys2Proof

section
variable {w m mask : Word} (hm : m &&& mask = m)
include hm

theorem extractLsb'_xor_of_disjoint {k n : Nat} (h : mask.extractLsb' k n = 0#n) :
    (w ^^^ m).extractLsb' k n = w.extractLsb' k n := by
  have hzero : m.extractLsb' k n = 0#n := by
    rw [← hm, BitVec.extractLsb'_and, h, BitVec.and_zero]
  rw [BitVec.extractLsb'_xor, hzero, BitVec.xor_zero]

theorem getLsbD_xor_of_disjoint {k : Nat} (h : mask.getLsbD k = false) :
    (w ^^^ m).getLsbD k = w.getLsbD k := by
  have hfalse : m.getLsbD k = false := by
    rw [← hm, BitVec.getLsbD_and, h, Bool.and_false]
  rw [BitVec.getLsbD_xor, hfalse, Bool.xor_false]

theorem Field.opcode_xor (h : mask.extractLsb' 12 4 = 0#4) :
    Field.opcode (w ^^^ m) = Field.opcode w := extractLsb'_xor_of_disjoint hm h

theorem Field.regAt9_xor (h : mask.extractLsb' 9 3 = 0#3) :
    Field.regAt9 (w ^^^ m) = Field.regAt9 w :=
  congrArg Reg.ofBits (extractLsb'_xor_of_disjoint hm h)

theorem Field.regAt6_xor (h : mask.extractLsb' 6 3 = 0#3) :
    Field.regAt6 (w ^^^ m) = Field.regAt6 w :=
  congrArg Reg.ofBits (extractLsb'_xor_of_disjoint hm h)

theorem Field.regAt0_xor (h : mask.extractLsb' 0 3 = 0#3) :
    Field.regAt0 (w ^^^ m) = Field.regAt0 w :=
  congrArg Reg.ofBits (extractLsb'_xor_of_disjoint hm h)

theorem Field.trapvect8_xor (h : mask.extractLsb' 0 8 = 0#8) :
    Field.trapvect8 (w ^^^ m) = Field.trapvect8 w := extractLsb'_xor_of_disjoint hm h

theorem Field.mode5_xor (h : mask.getLsbD 5 = false) :
    Field.mode5 (w ^^^ m) = Field.mode5 w := getLsbD_xor_of_disjoint hm h

theorem Field.mode11_xor (h : mask.getLsbD 11 = false) :
    Field.mode11 (w ^^^ m) = Field.mode11 w := getLsbD_xor_of_disjoint hm h

end

end Sys2Proof
end

section
/-!
What the decoder answers on the words that have unused bits, by their opcode and form bit (R100).
-/
namespace Sys2Proof

open Sys2Proof.Claims

variable {w : Word}

theorem decode_addReg (hop : Field.opcode w = 0x1#4) (hmode : Field.mode5 w = false) :
    decode w = .addReg (Field.regAt9 w) (Field.regAt6 w) (Field.regAt0 w) := by
  simp [decode, hop, hmode]

theorem decode_andReg (hop : Field.opcode w = 0x5#4) (hmode : Field.mode5 w = false) :
    decode w = .andReg (Field.regAt9 w) (Field.regAt6 w) (Field.regAt0 w) := by
  simp [decode, hop, hmode]

theorem decode_jsrr (hop : Field.opcode w = 0x4#4) (hmode : Field.mode11 w = false) :
    decode w = .jsrr (Field.regAt6 w) := by
  simp [decode, hop, hmode]

theorem decode_not (hop : Field.opcode w = 0x9#4) :
    decode w = .not (Field.regAt9 w) (Field.regAt6 w) := by
  simp [decode, hop]

theorem decode_jmp (hop : Field.opcode w = 0xC#4) :
    decode w = if Field.regAt6 w = .r7 then .ret else .jmp (Field.regAt6 w) := by
  simp [decode, hop]

theorem decode_trap (hop : Field.opcode w = 0xF#4) :
    decode w = if Field.trapvect8 w = Config.haltVector then .halt
      else .trap (Field.trapvect8 w) := by
  simp [decode, hop]

theorem unusedMask_decode_jmp (hop : Field.opcode w = 0xC#4) :
    unusedMask (decode w) = 0x0E3F#16 := by
  rw [decode_jmp hop]
  split <;> rfl

theorem unusedMask_decode_trap (hop : Field.opcode w = 0xF#4) :
    unusedMask (decode w) = 0x0F00#16 := by
  rw [decode_trap hop]
  split <;> rfl

/-- No word has an unused bit in its opcode. -/
theorem unusedMask_opcode (i : Instr) : (unusedMask i).extractLsb' 12 4 = 0#4 := by
  unfold unusedMask
  split <;> rfl

/-- Inversion: a word with unused bits is of one of the six formats R100 lists. The named cases
are the arms of `decode` for ADD, opcode 0x4, AND, NOT, JMP and TRAP, in this order. -/
theorem format_of_unusedMask_ne_zero (h : unusedMask (decode w) ≠ 0x0000#16) :
    ((Field.opcode w = 0x1#4 ∨ Field.opcode w = 0x5#4) ∧ Field.mode5 w = false) ∨
      (Field.opcode w = 0x4#4 ∧ Field.mode11 w = false) ∨
      Field.opcode w = 0x9#4 ∨ Field.opcode w = 0xC#4 ∨ Field.opcode w = 0xF#4 := by
  unfold decode at h
  split at h
  case h_2 hop =>
    cases hmode : Field.mode5 w with
    | true => simp [hmode, unusedMask] at h
    | false => exact .inl ⟨.inl (BitVec.eq_of_toNat_eq hop), rfl⟩
  case h_5 hop =>
    cases hmode : Field.mode11 w with
    | true => simp [hmode, unusedMask] at h
    | false => exact .inr (.inl ⟨BitVec.eq_of_toNat_eq hop, rfl⟩)
  case h_6 hop =>
    cases hmode : Field.mode5 w with
    | true => simp [hmode, unusedMask] at h
    | false => exact .inl ⟨.inr (BitVec.eq_of_toNat_eq hop), rfl⟩
  case h_10 hop => exact .inr (.inr (.inl (BitVec.eq_of_toNat_eq hop)))
  case h_13 hop => exact .inr (.inr (.inr (.inl (BitVec.eq_of_toNat_eq hop))))
  case h_16 =>
    have hlt := (Field.opcode w).isLt
    have hop : (Field.opcode w).toNat = 15 := by grind
    exact .inr (.inr (.inr (.inr (BitVec.eq_of_toNat_eq hop))))
  all_goals exact absurd rfl h

variable {m : Word}

/-- The first half of R100: the decoder does not look at the unused bits. -/
theorem decode_xor_of_unused (hm : m &&& unusedMask (decode w) = m) :
    decode (w ^^^ m) = decode w := by
  by_cases hnone : unusedMask (decode w) = 0x0000#16
  · have hzero : m = 0x0000#16 := by rw [← hm, hnone, BitVec.and_zero]
    rw [hzero, BitVec.xor_zero]
  have hopcode : Field.opcode (w ^^^ m) = Field.opcode w :=
    Field.opcode_xor hm (unusedMask_opcode (decode w))
  obtain ⟨hop | hop, hmode⟩ | ⟨hop, hmode⟩ | hop | hop | hop := format_of_unusedMask_ne_zero hnone
  · rw [decode_addReg hop hmode] at hm ⊢
    change m &&& 0x0018#16 = m at hm
    rw [decode_addReg (hopcode.trans hop) ((Field.mode5_xor hm rfl).trans hmode),
      Field.regAt9_xor hm rfl, Field.regAt6_xor hm rfl, Field.regAt0_xor hm rfl]
  · rw [decode_andReg hop hmode] at hm ⊢
    change m &&& 0x0018#16 = m at hm
    rw [decode_andReg (hopcode.trans hop) ((Field.mode5_xor hm rfl).trans hmode),
      Field.regAt9_xor hm rfl, Field.regAt6_xor hm rfl, Field.regAt0_xor hm rfl]
  · rw [decode_jsrr hop hmode] at hm ⊢
    change m &&& 0x063F#16 = m at hm
    rw [decode_jsrr (hopcode.trans hop) ((Field.mode11_xor hm rfl).trans hmode),
      Field.regAt6_xor hm rfl]
  · rw [decode_not hop] at hm ⊢
    change m &&& 0x003F#16 = m at hm
    rw [decode_not (hopcode.trans hop), Field.regAt9_xor hm rfl, Field.regAt6_xor hm rfl]
  · rw [unusedMask_decode_jmp hop] at hm
    rw [decode_jmp hop, decode_jmp (hopcode.trans hop), Field.regAt6_xor hm rfl]
  · rw [unusedMask_decode_trap hop] at hm
    rw [decode_trap hop, decode_trap (hopcode.trans hop), Field.trapvect8_xor hm rfl]

end Sys2Proof
end

section
/-!
What the encoder writes in the unused bits (R100 with D6, R108), format by format.
-/
namespace Sys2Proof

open Sys2Proof.Claims

variable (a b d : BitVec 3)

/-- No unused bit stands in the opcode, so the twelve operand bits decide. -/
theorem encode_and_unusedMask_of_operandBits {i : Instr} {mask fill : BitVec 12}
    (h : i.operandBits &&& mask = fill) (hmask : unusedMask i = 0b0000#4 ++ mask)
    (hfill : unusedFill i = 0b0000#4 ++ fill) : encode i &&& unusedMask i = unusedFill i := by
  rw [hmask, hfill, encode, BitVec.and_append, BitVec.and_zero, h]

/-- Bits 4 and 3 of format OPR (R89). -/
theorem opr_unused : (a ++ b ++ 0b000#3 ++ d : BitVec 12) &&& 0x018#12 = 0x000#12 := by
  change _ &&& (0b000#3 ++ 0b000#3 ++ 0b011#3 ++ 0b000#3 : BitVec 12) = _
  simp only [BitVec.and_append, BitVec.and_zero, BitVec.zero_and]
  rfl

/-- Bits 5 to 0 of format NOT (R91), which decision D6 sets. -/
theorem not_unused : (a ++ b ++ 0b111111#6 : BitVec 12) &&& 0x03F#12 = 0x03F#12 := by
  change _ &&& (0b000#3 ++ 0b000#3 ++ 0b111111#6 : BitVec 12) = _
  simp only [BitVec.and_append, BitVec.and_zero]
  rfl

/-- The bits around the register of formats JMP and JSRR (R95, R97). -/
theorem base_unused (x : BitVec 3) (y : BitVec 6) :
    (0b000#3 ++ b ++ 0b000000#6 : BitVec 12) &&& (x ++ 0b000#3 ++ y : BitVec 12) = 0x000#12 := by
  simp only [BitVec.and_append, BitVec.and_zero, BitVec.zero_and]
  rfl

/-- Bits 11 to 8 of format TRAP (R98). -/
theorem trap_unused (v : BitVec 8) : (0b0000#4 ++ v : BitVec 12) &&& 0xF00#12 = 0x000#12 := by
  change _ &&& (0b1111#4 ++ 0x00#8 : BitVec 12) = _
  simp only [BitVec.and_append, BitVec.and_zero]
  rfl

/-- The second half of R100: the encoder's bits where no field stands. -/
theorem encode_and_unusedMask (i : Instr) : encode i &&& unusedMask i = unusedFill i := by
  cases i with
  | addReg dr sr1 sr2 | andReg dr sr1 sr2 =>
    exact encode_and_unusedMask_of_operandBits (opr_unused dr.bits sr1.bits sr2.bits) rfl rfl
  | not dr sr => exact encode_and_unusedMask_of_operandBits (not_unused dr.bits sr.bits) rfl rfl
  | jmp baseR =>
    exact encode_and_unusedMask_of_operandBits (base_unused baseR.bits 0b111#3 0b111111#6) rfl rfl
  | ret => rfl
  | jsrr baseR =>
    exact encode_and_unusedMask_of_operandBits (base_unused baseR.bits 0b011#3 0b111111#6) rfl rfl
  | trap v => exact encode_and_unusedMask_of_operandBits (trap_unused v) rfl rfl
  | halt => rfl
  | _ => exact BitVec.and_zero

/-- Settles O4: flipped unused bits lie outside every field the decoder reads, and the encoder's
layout has the assembler's values there. -/
theorem unusedBitsAreIgnored : Obligations.UnusedBitsAreIgnored := by
  unfold Obligations.UnusedBitsAreIgnored
  exact ⟨fun w m hm => decode_xor_of_unused hm, encode_and_unusedMask⟩

end Sys2Proof
end

section
/-!
The cycle branch by branch: the step as `step_spec` gives it where the branch's conditions hold (R121
to R123), and the report of the branches that never reach a handler (R128).
-/
namespace Sys2Proof.Machine

variable {s : State}

theorem step_of_halted (h : s.run = false) : step s = .next s := by
  simpa [h] using step_spec s

theorem step_of_zeroWord (hr : s.run = true) (hz : fetch s = 0x0000#16) :
    step s = .next (s.stopWith .zeroWord) := by
  simpa [hr, hz] using step_spec s

theorem step_of_top (hr : s.run = true) (hw : fetch s ≠ 0x0000#16) (hp : s.pc = 0xFFFF#16) :
    step s = .next (s.stopWith .outOfBounds) := by
  simpa [hr, hw, hp] using step_spec s

theorem step_of_lt (hr : s.run = true) (hw : fetch s ≠ 0x0000#16) (hp : s.pc ≠ 0xFFFF#16) :
    step s = exec (decode (fetch s)) (s.setPc (s.pc + 1#16)) := by
  simpa [hr, hw, hp] using step_spec s

theorem stepReport_of_halted (h : s.run = false) : stepReport s = .halted s.stop :=
  if_neg (ne_true_of_eq_false h)

theorem stepReport_of_zeroWord (hr : s.run = true) (hz : fetch s = 0x0000#16) :
    stepReport s = .zeroWord := by
  rw [stepReport, if_pos hr, if_pos hz]

/-- The value reported is the exact sum of R123, which no pc holds. -/
theorem stepReport_of_top (hr : s.run = true) (hw : fetch s ≠ 0x0000#16) (hp : s.pc = 0xFFFF#16) :
    stepReport s = .outOfBounds 65536 := by
  have hsum : (s.pc.toNat : Int) + 1 = 65536 := by rw [hp]; rfl
  rw [stepReport, if_pos hr, if_neg hw, advance_of_top s hp, ← hsum]

/-- Settles O13: the step and its report both look at the run flag first. -/
theorem stepInHaltedDoesNothing : Obligations.StepInHaltedDoesNothing := by
  unfold Obligations.StepInHaltedDoesNothing
  exact fun s h => ⟨step_of_halted h, stepReport_of_halted h⟩

/-- Settles O14: the zero-word test stands before the pc advance, so the pc plays no part. -/
theorem zeroWordStopsTheRun : Obligations.ZeroWordStopsTheRun := by
  unfold Obligations.ZeroWordStopsTheRun
  refine ⟨fun s hr hz => ?fetched, fun s => ?meaning⟩
  case fetched => exact ⟨step_of_zeroWord hr hz, stepReport_of_zeroWord hr hz⟩
  case meaning => rfl

/-- Settles O15: the pc advance alone decides whether the decoded instruction is executed. -/
theorem stepRunsTheDecodedInstruction : Obligations.StepRunsTheDecodedInstruction := by
  unfold Obligations.StepRunsTheDecodedInstruction
  rintro s _ hr hw rfl
  refine ⟨fun hp => ?executed, fun hp => ?stopped⟩
  case executed => exact step_of_lt hr hw hp
  case stopped => exact ⟨step_of_top hr hw hp, stepReport_of_top hr hw hp⟩

end Sys2Proof.Machine
end

section
/-!
The words of ADD, AND and NOT (41_operate.md): what the decoder answers for the immediate forms, and the
numbers of the words the encoder gives for the formats OPR, OPI and NOT (R89 to R91).
-/
namespace Sys2Proof

variable {w : Word}

theorem decode_addImm (hop : Field.opcode w = 0x1#4) (hmode : Field.mode5 w = true) :
    decode w = .addImm (Field.regAt9 w) (Field.regAt6 w) (Field.imm5 w) := by
  simp [decode, hop, hmode]

theorem decode_andImm (hop : Field.opcode w = 0x5#4) (hmode : Field.mode5 w = true) :
    decode w = .andImm (Field.regAt9 w) (Field.regAt6 w) (Field.imm5 w) := by
  simp [decode, hop, hmode]

variable {i : Instr} {op : BitVec 4} {a b d : BitVec 3}

theorem encode_toNat_of_opr (hop : i.opcode = op)
    (hbits : i.operandBits = a ++ b ++ 0b000#3 ++ d) :
    (encode i).toNat = op.toNat * 4096 + a.toNat * 512 + b.toNat * 64 + d.toNat := by
  have hsum := opr_toNat a b 0b000#3 d
  rw [encode_toNat, hop, hbits, hsum, BitVec.toNat_ofNat]
  omega

/-- The form bit adds 0x20 to the word. -/
theorem encode_toNat_of_opi {imm5 : BitVec 5} (hop : i.opcode = op)
    (hbits : i.operandBits = a ++ b ++ 0b1#1 ++ imm5) :
    (encode i).toNat =
      (op.toNat * 4096 + 0x20) + a.toNat * 512 + b.toNat * 64 + imm5.toNat := by
  have hsum := opi_toNat a b 0b1#1 imm5
  rw [encode_toNat, hop, hbits, hsum, BitVec.toNat_ofNat]
  omega

/-- The six bits the encoder sets add 0x3F to the word. -/
theorem encode_toNat_of_not (hop : i.opcode = op)
    (hbits : i.operandBits = a ++ b ++ 0b111111#6) :
    (encode i).toNat = (op.toNat * 4096 + 0x3F) + a.toNat * 512 + b.toNat * 64 := by
  have hsum := base6_toNat a b 0b111111#6
  rw [encode_toNat, hop, hbits, hsum, BitVec.toNat_ofNat]
  omega

end Sys2Proof
end

section
/-!
ADD, AND and NOT (41_operate.md): each answers the write-back of one word in every state (R152), so its
whole change is that of `writeBack`, and only the word differs.
-/
namespace Sys2Proof.Machine

open Sys2Proof.Claims

/-- The source and the destination may be one register: `v` is a word already read. -/
theorem State.resultIn_writeBack (s : State) (dr : Reg) (v : Word) :
    ResultIn dr v s (s.writeBack dr v) := by
  unfold ResultIn
  refine ⟨s.rd_writeBack_same dr v, ?otherRegs, s.writeBack_cc dr v, s.writeBack_pc dr v, ?control,
    ?memory⟩
  case otherRegs => exact fun _ hne => s.rd_writeBack_other v hne
  case control => exact ⟨s.writeBack_run dr v, s.writeBack_stop dr v⟩
  case memory => exact fun a => congrArg (·.read a) (s.writeBack_mem dr v)

variable (dr sr sr1 sr2 : Reg) (imm5 : BitVec 5) (s : State)

theorem exec_addReg :
    exec (.addReg dr sr1 sr2) s = .next (s.writeBack dr (s.rd sr1 + s.rd sr2)) := by
  rw [← addTrunc_word]
  rfl

theorem exec_addImm :
    exec (.addImm dr sr1 imm5) s = .next (s.writeBack dr (s.rd sr1 + imm5.signExtend 16)) := by
  rw [← addTrunc_sext]
  rfl

theorem exec_andReg :
    exec (.andReg dr sr1 sr2) s = .next (s.writeBack dr (s.rd sr1 &&& s.rd sr2)) := rfl

theorem exec_andImm :
    exec (.andImm dr sr1 imm5) s = .next (s.writeBack dr (s.rd sr1 &&& imm5.signExtend 16)) := by
  rw [← immWord_eq_signExtend]
  rfl

theorem exec_andImm_zero : exec (.andImm dr sr1 0#5) s = .next (s.writeBack dr 0x0000#16) := by
  have hzero : s.rd sr1 &&& (0#5).signExtend 16 = 0x0000#16 := BitVec.and_zero
  rw [exec_andImm, hzero]

theorem exec_not :
    exec (.not dr sr) s = .next (s.writeBack dr (0xFFFF#16 - s.rd sr)) := by
  have hcomplement : 0xFFFF#16 - s.rd sr = ~~~ (s.rd sr) := BitVec.allOnes_sub_eq_not (s.rd sr)
  rw [hcomplement]
  rfl

/-- Settles O19: the exact sum of two words truncates to their sum. -/
theorem addRegisterForm : Obligations.AddRegisterForm := by
  unfold Obligations.AddRegisterForm
  refine ⟨fun w hop hmode => decode_addReg hop hmode, fun dr sr1 sr2 => ?encoding,
    fun dr sr1 sr2 s => ?effect⟩
  case encoding => exact encode_toNat_of_opr (op := 0x1#4) rfl rfl
  case effect => exact ⟨_, exec_addReg dr sr1 sr2 s, s.resultIn_writeBack dr _⟩

/-- Settles O20: the exact sum with a signed field truncates to the sum with the extended word. -/
theorem addImmediateForm : Obligations.AddImmediateForm := by
  unfold Obligations.AddImmediateForm
  refine ⟨fun w hop hmode => decode_addImm hop hmode, fun dr sr1 imm5 => ?encoding,
    fun dr sr1 imm5 s => ?effect⟩
  case encoding => exact encode_toNat_of_opi (op := 0x1#4) rfl rfl
  case effect => exact ⟨_, exec_addImm dr sr1 imm5 s, s.resultIn_writeBack dr _⟩

/-- Settles O21: the handler writes back the AND of the words it read. -/
theorem andRegisterForm : Obligations.AndRegisterForm := by
  unfold Obligations.AndRegisterForm
  refine ⟨fun w hop hmode => decode_andReg hop hmode, fun dr sr1 sr2 => ?encoding,
    fun dr sr1 sr2 s => ?effect⟩
  case encoding => exact encode_toNat_of_opr (op := 0x5#4) rfl rfl
  case effect => exact ⟨_, exec_andReg dr sr1 sr2 s, s.resultIn_writeBack dr _⟩

/-- Settles O22: the operand is the sign-extended field, and for immediate 0 it clears every bit. -/
theorem andImmediateForm : Obligations.AndImmediateForm := by
  unfold Obligations.AndImmediateForm
  refine ⟨fun w hop hmode => decode_andImm hop hmode, fun dr sr1 imm5 => ?encoding,
    fun dr sr1 imm5 s => ?effect, fun dr sr1 s => ?immediateZero⟩
  case encoding => exact encode_toNat_of_opi (op := 0x5#4) rfl rfl
  case effect => exact ⟨_, exec_andImm dr sr1 imm5 s, s.resultIn_writeBack dr _⟩
  case immediateZero =>
    exact ⟨_, exec_andImm_zero dr sr1 s, s.rd_writeBack_same dr _, s.writeBack_cc dr _⟩

/-- Settles O23: inverting every bit of a word subtracts it from 0xFFFF. -/
theorem notComplements : Obligations.NotComplements := by
  unfold Obligations.NotComplements
  refine ⟨fun w hop => decode_not hop, fun dr sr => ?encoding, fun dr sr s => ?effect⟩
  case encoding => exact encode_toNat_of_not (op := 0x9#4) rfl rfl
  case effect => exact ⟨_, exec_not dr sr s, s.resultIn_writeBack dr _⟩

end Sys2Proof.Machine
end

section
/-!
The words of LD, LDI, LDR and LEA (42_loads.md): what the decoder answers for their opcodes, and the
numbers of the words the encoder gives for the formats PC9 and BASE6 (R92, R93).
-/
namespace Sys2Proof

section
variable {w : Word}

theorem decode_ld (hop : Field.opcode w = 0x2#4) :
    decode w = .ld (Field.regAt9 w) (Field.pcOffset9 w) := by
  simp [decode, hop]

theorem decode_ldi (hop : Field.opcode w = 0xA#4) :
    decode w = .ldi (Field.regAt9 w) (Field.pcOffset9 w) := by
  simp [decode, hop]

theorem decode_ldr (hop : Field.opcode w = 0x6#4) :
    decode w = .ldr (Field.regAt9 w) (Field.regAt6 w) (Field.offset6 w) := by
  simp [decode, hop]

theorem decode_lea (hop : Field.opcode w = 0xE#4) :
    decode w = .lea (Field.regAt9 w) (Field.pcOffset9 w) := by
  simp [decode, hop]

end

variable {i : Instr} {op : BitVec 4} {a b : BitVec 3}

theorem encode_toNat_of_pc9 {off : BitVec 9} (hop : i.opcode = op)
    (hbits : i.operandBits = a ++ off) :
    (encode i).toNat = op.toNat * 4096 + a.toNat * 512 + off.toNat := by
  have hsum := pc9_toNat a off
  rw [encode_toNat, hop, hbits, hsum, Nat.add_assoc]

theorem encode_toNat_of_base6 {off : BitVec 6} (hop : i.opcode = op)
    (hbits : i.operandBits = a ++ b ++ off) :
    (encode i).toNat = op.toNat * 4096 + a.toNat * 512 + b.toNat * 64 + off.toNat := by
  have hsum := base6_toNat a b off
  rw [encode_toNat, hop, hbits, hsum]
  omega

end Sys2Proof
end

section
/-!
LD, LDI, LDR and LEA (42_loads.md). A load whose exact address is a word's value writes back the word
read there; outside the range it raises with nothing written (R161). LEA reads no memory.
-/
namespace Sys2Proof.Machine

open Sys2Proof.Claims

section
variable (dr baseR : Reg) (off : BitVec 9) (off6 : BitVec 6) (s : State)

theorem exec_ld : exec (.ld dr off) s = loadFrom dr (pcRel9 s off) s := rfl

theorem exec_ldi : exec (.ldi dr off) s = execLdi dr off s := rfl

theorem exec_ldr : exec (.ldr dr baseR off6) s = loadFrom dr (baseOff6 s baseR off6) s := rfl

theorem exec_lea :
    exec (.lea dr off) s = .next (s.writeBack dr (s.pc + off.signExtend 16)) := by
  rw [← addTrunc_sext]
  rfl

variable {dr s}

theorem loadFrom_of_toNat_eq {ea : Int} {a : Word} (ha : (a.toNat : Int) = ea) :
    loadFrom dr ea s = .next (s.writeBack dr (s.mem.read a)) := by
  rw [← ha, loadFrom_word]

theorem loadFrom_of_outOfRange {ea : Int} (hout : OutOfRange ea) :
    loadFrom dr ea s = .next (s.stopWith .outOfBounds) := by
  rw [loadFrom, memRead_of_not_inRange s (outOfRange_iff_not_inRange.mp hout)]
  rfl

variable {off}

/-- The pointer is a word, so the second read is in range whatever it holds. -/
theorem execLdi_of_toNat_eq {a : Word} (ha : (a.toNat : Int) = pcRel9 s off) :
    execLdi dr off s = .next (s.writeBack dr (s.mem.read (s.mem.read a))) := by
  rw [execLdi, ← ha, memRead_word]
  exact loadFrom_word dr (s.mem.read a) s

theorem execLdi_of_outOfRange (hout : OutOfRange (pcRel9 s off)) :
    execLdi dr off s = .next (s.stopWith .outOfBounds) := by
  rw [execLdi, memRead_of_not_inRange s (outOfRange_iff_not_inRange.mp hout)]
  rfl

end

/-- Settles O24: the load's end at the pc-relative address. -/
theorem ldLoadsPcRelative : Obligations.LdLoadsPcRelative := by
  unfold Obligations.LdLoadsPcRelative
  refine ⟨fun w hop => decode_ld hop, fun dr off => ?encoding,
    fun dr off s => ⟨fun a ha => ?loads, fun hout => ?raises⟩⟩
  case encoding => exact encode_toNat_of_pc9 (op := 0x2#4) rfl rfl
  case loads =>
    exact ⟨_, (exec_ld dr off s).trans (loadFrom_of_toNat_eq ha), s.resultIn_writeBack dr _⟩
  case raises => exact (exec_ld dr off s).trans (loadFrom_of_outOfRange hout)

/-- Settles O25: the load's end at the word read first, whose own read alone can raise. -/
theorem ldiLoadsThroughAPointer : Obligations.LdiLoadsThroughAPointer := by
  unfold Obligations.LdiLoadsThroughAPointer
  refine ⟨fun w hop => decode_ldi hop, fun dr off => ?encoding,
    fun dr off s => ⟨fun a ha => ?loads, fun hout => ?raises⟩⟩
  case encoding => exact encode_toNat_of_pc9 (op := 0xA#4) rfl rfl
  case loads =>
    exact ⟨_, (exec_ldi dr off s).trans (execLdi_of_toNat_eq ha), s.resultIn_writeBack dr _⟩
  case raises => exact (exec_ldi dr off s).trans (execLdi_of_outOfRange hout)

/-- Settles O26: the address comes from the state before the write-back, so `dr` may be `baseR`. -/
theorem ldrLoadsBaseOffset : Obligations.LdrLoadsBaseOffset := by
  unfold Obligations.LdrLoadsBaseOffset
  refine ⟨fun w hop => decode_ldr hop, fun dr baseR off => ?encoding,
    fun dr baseR off s => ⟨fun a ha => ?loads, fun hout => ?raises⟩⟩
  case encoding => exact encode_toNat_of_base6 (op := 0x6#4) rfl rfl
  case loads =>
    exact ⟨_, (exec_ldr dr baseR off s).trans (loadFrom_of_toNat_eq ha), s.resultIn_writeBack dr _⟩
  case raises => exact (exec_ldr dr baseR off s).trans (loadFrom_of_outOfRange hout)

/-- Settles O27: the exact address truncates to the wrapping sum with the extended offset. -/
theorem leaStoresTheWrappedAddress : Obligations.LeaStoresTheWrappedAddress := by
  unfold Obligations.LeaStoresTheWrappedAddress
  refine ⟨fun w hop => decode_lea hop, fun dr off => ?encoding, fun dr off s => ?effect⟩
  case encoding => exact encode_toNat_of_pc9 (op := 0xE#4) rfl rfl
  case effect => exact ⟨_, exec_lea dr off s, s.resultIn_writeBack dr _⟩

end Sys2Proof.Machine
end

section
/-!
ST, STI and STR (43_stores.md): what the decoder answers for their opcodes. A store whose exact address
is a word's value writes that one word; outside the range it raises with nothing written (R181).
-/
namespace Sys2Proof

variable {w : Word}

theorem decode_st (hop : Field.opcode w = 0x3#4) :
    decode w = .st (Field.regAt9 w) (Field.pcOffset9 w) := by
  simp [decode, hop]

theorem decode_sti (hop : Field.opcode w = 0xB#4) :
    decode w = .sti (Field.regAt9 w) (Field.pcOffset9 w) := by
  simp [decode, hop]

theorem decode_str (hop : Field.opcode w = 0x7#4) :
    decode w = .str (Field.regAt9 w) (Field.regAt6 w) (Field.offset6 w) := by
  simp [decode, hop]

end Sys2Proof

namespace Sys2Proof.Machine

open Sys2Proof.Claims

section
variable (sr baseR : Reg) (off : BitVec 9) (off6 : BitVec 6) (s : State)

theorem exec_st : exec (.st sr off) s = storeTo (pcRel9 s off) (s.rd sr) s := rfl

theorem exec_sti : exec (.sti sr off) s = execSti sr off s := rfl

theorem exec_str : exec (.str sr baseR off6) s = storeTo (baseOff6 s baseR off6) (s.rd sr) s := rfl

variable {sr off s}

theorem storeTo_of_toNat_eq {ea : Int} {a v : Word} (ha : (a.toNat : Int) = ea) :
    storeTo ea v s = .next (s.setMem a v) := by
  rw [← ha, storeTo_word]

theorem storeTo_of_outOfRange {ea : Int} {v : Word} (hout : OutOfRange ea) :
    storeTo ea v s = .next (s.stopWith .outOfBounds) := by
  rw [storeTo, memWrite_of_not_inRange s v (outOfRange_iff_not_inRange.mp hout)]
  rfl

/-- The pointer is a word read before the write, so the store is in range and may go to `a` itself. -/
theorem execSti_of_toNat_eq {a : Word} (ha : (a.toNat : Int) = pcRel9 s off) :
    execSti sr off s = .next (s.setMem (s.mem.read a) (s.rd sr)) := by
  rw [execSti, ← ha, memRead_word]
  exact storeTo_word (s.mem.read a) (s.rd sr) s

theorem execSti_of_outOfRange (hout : OutOfRange (pcRel9 s off)) :
    execSti sr off s = .next (s.stopWith .outOfBounds) := by
  rw [execSti, memRead_of_not_inRange s (outOfRange_iff_not_inRange.mp hout)]
  rfl

end

/-- Settles O28: the store's end at the pc-relative address. -/
theorem stStoresPcRelative : Obligations.StStoresPcRelative := by
  unfold Obligations.StStoresPcRelative
  refine ⟨fun w hop => decode_st hop, fun sr off => ?encoding,
    fun sr off s => ⟨fun a ha => ?stores, fun hout => ?raises⟩⟩
  case encoding => exact encode_toNat_of_pc9 (op := 0x3#4) rfl rfl
  case stores =>
    exact ⟨_, (exec_st sr off s).trans (storeTo_of_toNat_eq ha), s.storedAt_setMem a _⟩
  case raises => exact (exec_st sr off s).trans (storeTo_of_outOfRange hout)

/-- Settles O29: the store's end at the word the pointer's address held, whose read alone can raise. -/
theorem stiStoresThroughAPointer : Obligations.StiStoresThroughAPointer := by
  unfold Obligations.StiStoresThroughAPointer
  refine ⟨fun w hop => decode_sti hop, fun sr off => ?encoding,
    fun sr off s => ⟨fun a ha => ?stores, fun hout => ?raises⟩⟩
  case encoding => exact encode_toNat_of_pc9 (op := 0xB#4) rfl rfl
  case stores =>
    exact ⟨_, (exec_sti sr off s).trans (execSti_of_toNat_eq ha), s.storedAt_setMem _ _⟩
  case raises => exact (exec_sti sr off s).trans (execSti_of_outOfRange hout)

/-- Settles O30: the store's end at the base register's address; `sr` may be `baseR`, since both are
only read. -/
theorem strStoresBaseOffset : Obligations.StrStoresBaseOffset := by
  unfold Obligations.StrStoresBaseOffset
  refine ⟨fun w hop => decode_str hop, fun sr baseR off => ?encoding,
    fun sr baseR off s => ⟨fun a ha => ?stores, fun hout => ?raises⟩⟩
  case encoding => exact encode_toNat_of_base6 (op := 0x7#4) rfl rfl
  case stores =>
    exact ⟨_, (exec_str sr baseR off s).trans (storeTo_of_toNat_eq ha), s.storedAt_setMem a _⟩
  case raises => exact (exec_str sr baseR off s).trans (storeTo_of_outOfRange hout)

end Sys2Proof.Machine
end

section
/-!
The words of BR, JMP, JSR and JSRR (44_control.md): what the decoder answers for them, and the
numbers of the words the encoder gives for their formats (R94 to R97).
-/
namespace Sys2Proof

theorem Reg.ofBits_eq_iff {b : BitVec 3} {r : Reg} : Reg.ofBits b = r ↔ b = r.bits where
  mp h := by rw [← h, Reg.bits_ofBits]
  mpr h := by rw [h, Reg.ofBits_bits]

section
variable {w : Word}

theorem decode_br (hop : Field.opcode w = 0x0#4) :
    decode w = .br (w.getLsbD 11) (w.getLsbD 10) (w.getLsbD 9) (Field.pcOffset9 w) := by
  simp [decode, hop]

theorem decode_jsr (hop : Field.opcode w = 0x4#4) (hmode : Field.mode11 w = true) :
    decode w = .jsr (Field.pcOffset11 w) := by
  simp [decode, hop, hmode]

theorem decode_jmp_of_ne_r7 (hop : Field.opcode w = 0xC#4) (hne : Field.regAt6 w ≠ .r7) :
    decode w = .jmp (Field.regAt6 w) := by
  rw [decode_jmp hop, if_neg hne]

end

theorem encode_br_toNat (n z p : Bool) (off : BitVec 9) :
    (encode (.br n z p off)).toNat =
      n.toNat * 2048 + z.toNat * 1024 + p.toNat * 512 + off.toNat := by
  have hop : (Instr.br n z p off).opcode.toNat = 0 := rfl
  have hsum := br_toNat (BitVec.ofBool n) (BitVec.ofBool z) (BitVec.ofBool p) off
  rw [encode_toNat, hop, Nat.zero_mul, Nat.zero_add, Instr.operandBits, hsum]
  simp only [BitVec.toNat_ofBool]

/-- The form bit adds 0x800 to the opcode's 0x4000. -/
theorem encode_jsr_toNat (off : BitVec 11) : (encode (.jsr off)).toNat = 0x4800 + off.toNat := by
  have hop : (Instr.jsr off).opcode.toNat = 0x4 := rfl
  have hsum := jsr_toNat 0b1#1 off
  rw [encode_toNat, hop, Instr.operandBits, hsum, BitVec.toNat_ofNat]
  omega

/-- JMP and JSRR: the base register with zeros around it. -/
theorem encode_toNat_of_base {i : Instr} {op : BitVec 4} {b : BitVec 3} (hop : i.opcode = op)
    (hbits : i.operandBits = 0b000#3 ++ b ++ 0b000000#6) :
    (encode i).toNat = op.toNat * 4096 + b.toNat * 64 := by
  have hsum := base6_toNat 0b000#3 b 0b000000#6
  rw [encode_toNat, hop, hbits, hsum, BitVec.toNat_ofNat, BitVec.toNat_ofNat]
  omega

end Sys2Proof
end

section
/-!
BR, JMP, JSR and JSRR (44_control.md). A checked jump whose exact target is a word's value goes
there; outside the range it raises with nothing written (R201). A link changes R7 and the pc alone.
-/
namespace Sys2Proof.Machine

open Sys2Proof.Claims

theorem taken_iff_branchTaken {n z p : Bool} {cc : CC} :
    Taken n z p cc ↔ branchTaken n z p cc = true := by
  unfold Taken
  cases cc with
  | n => simp [branchTaken]
  | z => simp [branchTaken]
  | p => simp [branchTaken]

section
variable {s : State} {target : Int} {k : Word → State}

theorem jumpChecked_of_toNat_eq {a : Word} (ha : (a.toNat : Int) = target) :
    jumpChecked s target k = .next (k a) := by
  rw [← ha, jumpChecked, if_pos (inRange_toNat a), trunc16_toNat_cast]

theorem jumpChecked_of_outOfRange (hout : OutOfRange target) :
    jumpChecked s target k = .next (s.stopWith .outOfBounds) :=
  if_neg (outOfRange_iff_not_inRange.mp hout)

end

section
variable {n z p : Bool} (off : BitVec 9) {s : State}

theorem exec_br_of_not_taken (h : ¬ Taken n z p s.cc) : exec (.br n z p off) s = .next s :=
  if_neg (mt taken_iff_branchTaken.mpr h)

theorem exec_br_of_taken (h : Taken n z p s.cc) :
    exec (.br n z p off) s = jumpChecked s (pcRel9 s off) s.setPc :=
  if_pos (taken_iff_branchTaken.mp h)

end

section
variable (baseR : Reg) (off : BitVec 11) (s : State)

theorem exec_jmp : exec (.jmp baseR) s = .next (s.setPc (s.rd baseR)) := rfl

theorem exec_ret : exec .ret s = .next (s.setPc (s.rd .r7)) := rfl

/-- RET, the name of the words with base register 7, jumps as JMP does (R209). -/
theorem exec_decode_of_jmp {w : Word} (hop : Field.opcode w = 0xC#4) :
    exec (decode w) s = .next (s.setPc (s.rd (Field.regAt6 w))) := by
  by_cases hr7 : Field.regAt6 w = .r7
  · rw [decode_jmp hop, if_pos hr7, exec_ret, hr7]
  · rw [decode_jmp_of_ne_r7 hop hr7, exec_jmp]

theorem exec_jsr :
    exec (.jsr off) s = jumpChecked s (pcRel11 s off) (s.wr .r7 s.pc).setPc := rfl

theorem exec_jsrr :
    exec (.jsrr baseR) s = .next ((s.wr .r7 s.pc).setPc ((s.wr .r7 s.pc).rd baseR)) := rfl

end

/-- The whole change a jump that links makes: the incremented pc in R7, `a` in the pc, and nothing
else. -/
def LinkedTo (a : Word) (s t : State) : Prop :=
  t.rd .r7 = s.pc ∧ SameRegsBut .r7 s t ∧ t.pc = a ∧ t.cc = s.cc ∧ SameRun s t ∧ SameMem s t

theorem State.linkedTo_wr_setPc (s : State) (a : Word) :
    LinkedTo a s ((s.wr .r7 s.pc).setPc a) := by
  unfold LinkedTo
  refine ⟨s.rd_wr_same .r7 s.pc, ?otherRegs, (s.wr .r7 s.pc).setPc_pc a, s.wr_cc .r7 s.pc, ?control,
    ?memory⟩
  case otherRegs => exact fun _ hne => s.rd_wr_other s.pc hne
  case control => exact ⟨s.wr_run .r7 s.pc, s.wr_stop .r7 s.pc⟩
  case memory => exact fun b => congrArg (·.read b) (s.wr_mem .r7 s.pc)

/-- Settles O31: the condition code alone decides whether there is a target to check. -/
theorem brBranchesOnTheConditionCode : Obligations.BrBranchesOnTheConditionCode := by
  unfold Obligations.BrBranchesOnTheConditionCode
  refine ⟨fun w hop _ => decode_br hop, encode_br_toNat, fun n z p off s =>
    ⟨exec_br_of_not_taken off, fun htaken => ⟨fun a ha => ?jumps, fun hout => ?raises⟩⟩⟩
  case jumps => exact (exec_br_of_taken off htaken).trans (jumpChecked_of_toNat_eq ha)
  case raises => exact (exec_br_of_taken off htaken).trans (jumpChecked_of_outOfRange hout)

/-- Settles O32: both names of a word of opcode 0xC jump to the register it names. -/
theorem jmpGoesToTheBaseRegister : Obligations.JmpGoesToTheBaseRegister := by
  unfold Obligations.JmpGoesToTheBaseRegister
  refine ⟨fun w hop hne => ?word, fun baseR => ?encoding, exec_jmp,
    fun w s hop => exec_decode_of_jmp s hop⟩
  case word => exact decode_jmp_of_ne_r7 hop (mt Reg.ofBits_eq_iff.mp hne)
  case encoding => exact encode_toNat_of_base (op := 0xC#4) rfl rfl

/-- Settles O34: the target is checked before the link is written, so a raise writes neither. -/
theorem jsrLinksAndJumps : Obligations.JsrLinksAndJumps := by
  unfold Obligations.JsrLinksAndJumps
  refine ⟨fun w hop hmode => decode_jsr hop hmode, encode_jsr_toNat,
    fun off s => ⟨fun a ha => ?jumps, fun hout => ?raises⟩⟩
  case jumps =>
    exact ⟨_, (exec_jsr off s).trans (jumpChecked_of_toNat_eq ha), s.linkedTo_wr_setPc a⟩
  case raises => exact (exec_jsr off s).trans (jumpChecked_of_outOfRange hout)

/-- Settles O35: the base is read after the link is written, so base R7 reads the link (D7). -/
theorem jsrrLinksThenReadsTheBase : Obligations.JsrrLinksThenReadsTheBase := by
  unfold Obligations.JsrrLinksThenReadsTheBase
  refine ⟨fun w hop hmode => decode_jsrr hop hmode, fun baseR => ?encoding, fun baseR s => ?effect⟩
  case encoding => exact encode_toNat_of_base (op := 0x4#4) rfl rfl
  case effect =>
    obtain ⟨hlink, hregs, hpc, hcc, hrun, hmem⟩ :=
      s.linkedTo_wr_setPc ((s.wr .r7 s.pc).rd baseR)
    refine ⟨_, exec_jsrr baseR s, hlink, hregs, fun hne => ?otherBase, ?linkBase, hcc, hrun, hmem⟩
    case otherBase => exact hpc.trans (s.rd_wr_other s.pc hne)
    case linkBase =>
      rintro rfl
      exact hpc.trans (s.rd_wr_same .r7 s.pc)

end Sys2Proof.Machine
end

section
/-!
The words of TRAP and HALT (45_trap.md): what the decoder answers for a vector and for the vector 0x25,
and the numbers of the words the encoder gives for format TRAP (R98).
-/
namespace Sys2Proof

section
variable {w : Word} (hop : Field.opcode w = 0xF#4)
include hop

theorem decode_trap_of_ne (hne : Field.trapvect8 w ≠ 0x25#8) :
    decode w = .trap (Field.trapvect8 w) :=
  (decode_trap hop).trans (if_neg hne)

theorem decode_trap_haltVector (hv : Field.trapvect8 w = 0x25#8) : decode w = .halt :=
  (decode_trap hop).trans (if_pos hv)

end

/-- The four unused bits are 0, so the vector alone is added to the opcode's 0xF000. -/
theorem encode_trap_toNat (v : BitVec 8) : (encode (.trap v)).toNat = 0xF000 + v.toNat := by
  have hop : (Instr.trap v).opcode.toNat = 0xF := rfl
  have hsum := trap_toNat v 0b0000#4
  rw [encode_toNat, hop, Instr.operandBits, hsum, BitVec.toNat_ofNat]
  omega

/-- The zero word decodes as a BR. -/
theorem ne_zero_of_decode_eq_halt {w : Word} (h : decode w = .halt) : w ≠ 0x0000#16 := by
  rintro rfl
  exact absurd h (by decide)

end Sys2Proof
end

section
/-!
TRAP and HALT (45_trap.md). The handler writes the zero-extended vector to the pc and, for the vector
0x25, ends the run; HALT is that case by its own name, and the step that runs it reports it (R128).
-/
namespace Sys2Proof.Machine

theorem vectorAddress_eq_ofNat (v : BitVec 8) : vectorAddress v = BitVec.ofNat 16 v.toNat :=
  (BitVec.ofNat_toNat 16 v).symm

section
variable {s : State}

theorem exec_trap_of_ne {v : BitVec 8} (hne : v ≠ 0x25#8) :
    exec (.trap v) s = .next (s.setPc (vectorAddress v)) :=
  congrArg _ (if_neg hne)

variable (s)

theorem exec_halt : exec .halt s = .next ((s.setPc 0x0025#16).stopWith .halt) := rfl

theorem exec_trap_haltVector : exec (.trap 0x25#8) s = exec .halt s := rfl

/-- The name of the word with vector 0x25 does not matter (R104, R233). -/
theorem exec_decode_of_trap {w : Word} (hop : Field.opcode w = 0xF#4) :
    exec (decode w) s = exec (.trap (Field.trapvect8 w)) s := by
  by_cases hv : Field.trapvect8 w = 0x25#8
  · rw [decode_trap_haltVector hop hv, hv, exec_trap_haltVector]
  · rw [decode_trap_of_ne hop hv]

variable {s}

/-- The report of a step that reaches the handler. -/
theorem stepReport_of_lt (hr : s.run = true) (hw : fetch s ≠ 0x0000#16) (hp : s.pc ≠ 0xFFFF#16) :
    stepReport s = handlerReport (decode (fetch s)) (s.setPc (s.pc + 1#16)) := by
  rw [stepReport, if_pos hr, if_neg hw, advance_of_lt s hp]

theorem stepReport_of_halt (hr : s.run = true) (hp : s.pc ≠ 0xFFFF#16)
    (hd : decode (fetch s) = .halt) : stepReport s = .halt := by
  rw [stepReport_of_lt hr (ne_zero_of_decode_eq_halt hd) hp, hd]
  rfl

end

/-- Settles O36: the vector alone decides whether the jump ends the run, by either name of the word. -/
theorem trapJumpsToTheVector : Obligations.TrapJumpsToTheVector := by
  unfold Obligations.TrapJumpsToTheVector
  refine ⟨fun w hop hne => decode_trap_of_ne hop hne, encode_trap_toNat,
    fun v s => ⟨fun hne => ?goesOn, ?ends, ?word⟩⟩
  case goesOn =>
    rw [exec_trap_of_ne hne, vectorAddress_eq_ofNat]
    rfl
  case ends =>
    rintro rfl
    exact (exec_trap_haltVector s).trans (exec_halt s)
  case word =>
    rintro w hop rfl
    exact exec_decode_of_trap s hop

/-- Settles O37: the handler of vector 0x25 under HALT's name, and no zero word is HALT, so its step
reaches the handler. -/
theorem haltEndsTheRun : Obligations.HaltEndsTheRun := by
  unfold Obligations.HaltEndsTheRun
  refine ⟨fun w hop hv => decode_trap_haltVector hop hv, ?canonicalWord, ?sameWord,
    fun s => ⟨exec_halt s, (exec_trap_haltVector s).symm⟩, fun s hr hp hd => ?report⟩
  case canonicalWord => rfl
  case sameWord => rfl
  case report => exact stepReport_of_halt hr hp hd

end Sys2Proof.Machine
end

section
/-!
The out of bounds stop (60_exceptions.md, R255). A handler raises with the value the table gives it, and
exactly then the stop cause is OutOfBounds; the pc advance raises with 65,536.
-/
namespace Sys2Proof.Machine

open Sys2Proof.Claims

section
variable {i : Instr} {s t : State} {v : Int}

/-- The value a handler checks is the one the table of R255 gives its instruction. -/
theorem checkedValue_eq_some_iff : checkedValue i s = some v ↔ RangeChecks i s v := by
  cases i with
  | br n z p off =>
    by_cases htaken : branchTaken n z p s.cc = true
    · simp [checkedValue, RangeChecks, taken_iff_branchTaken, htaken, pcRel9, sext_eq_toInt, eq_comm]
    · simp [checkedValue, RangeChecks, taken_iff_branchTaken, htaken]
  | ld | ldi | st | sti => simp [checkedValue, RangeChecks, pcRel9, sext_eq_toInt, eq_comm]
  | ldr | str => simp [checkedValue, RangeChecks, baseOff6, sext_eq_toInt, eq_comm]
  | jsr off => simp [checkedValue, RangeChecks, pcRel11, sext_eq_toInt, eq_comm]
  | stop0 | addReg | addImm | jsrr | andReg | andImm | unknown8 | not | ret | jmp | unknownD | lea
  | halt | trap => simp [checkedValue, RangeChecks]

theorem raisedValue_eq_some_iff :
    raisedValue i s = some v ↔ OutOfRange v ∧ RangeChecks i s v := by
  rw [← checkedValue_eq_some_iff, outOfRange_iff_not_inRange]
  constructor
  · intro hraised
    cases hchecked : checkedValue i s with
    | none => simp [raisedValue_of_unchecked hchecked] at hraised
    | some u =>
      by_cases hu : InRange u
      · simp [raisedValue_of_inRange hchecked hu] at hraised
      · rw [raisedValue_of_not_inRange hchecked hu] at hraised
        cases hraised
        exact ⟨hu, rfl⟩
  · rintro ⟨hv, hchecked⟩
    exact raisedValue_of_not_inRange hchecked hv

theorem handlerReport_of_raisedValue (h : raisedValue i s = some v) :
    handlerReport i s = .outOfBounds v := by
  simp only [handlerReport, h]

/-- A handler given a state with no stop cause leaves OutOfBounds exactly when it raises. -/
theorem Effect.stop_eq_outOfBounds_iff (he : Effect i s t) (hs : s.stop = .none) :
    t.stop = .outOfBounds ↔ ∃ v, raisedValue i s = some v := by
  cases he with
  | raise v hr => simp [hr]
  | result dr v _ hr | store a v _ hr | jump a _ hr | link a _ hr | stay _ hr => simp [hs, hr]
  | halt hi =>
    have hr : raisedValue i s = none := by rcases hi with rfl | rfl <;> rfl
    simp [hr]
  | zeroWord hi =>
    have hr : raisedValue i s = none := by rw [hi]; rfl
    simp [hr]
  | unknown hi =>
    have hr : raisedValue i s = none := by rcases hi with ⟨_, rfl⟩ | ⟨_, rfl⟩ <;> rfl
    simp [hr]

theorem not_raises_of_zeroWord (hz : fetch s = 0x0000#16) : ¬ Raises s v :=
  fun ⟨hw, _⟩ => hw hz

theorem raises_iff_of_top (hw : fetch s ≠ 0x0000#16) (hp : s.pc = 0xFFFF#16) :
    Raises s v ↔ v = 65536 := by
  have hread : s.mem.read s.pc ≠ 0x0000#16 := hw
  unfold Raises
  tauto

theorem raises_iff_of_lt (hw : fetch s ≠ 0x0000#16) (hp : s.pc ≠ 0xFFFF#16) :
    Raises s v ↔ raisedValue (decode (fetch s)) (s.setPc (s.pc + 1#16)) = some v := by
  have hread : s.mem.read s.pc ≠ 0x0000#16 := hw
  rw [raisedValue_eq_some_iff]
  unfold Raises State.setPc fetch
  tauto

end

/-- Settles O41: the three ways through the cycle, of which the handler's is the inversion of `exec`. -/
theorem outOfBoundsIsRaisedExactlyAtTheListedPlaces :
    Obligations.OutOfBoundsIsRaisedExactlyAtTheListedPlaces := by
  unfold Obligations.OutOfBoundsIsRaisedExactlyAtTheListedPlaces
  intro s t hr hs hstep
  by_cases hz : fetch s = 0x0000#16
  · rw [step_of_zeroWord hr hz] at hstep
    cases hstep
    simp [not_raises_of_zeroWord hz]
  by_cases hp : s.pc = 0xFFFF#16
  · rw [step_of_top hr hz hp] at hstep
    cases hstep
    simp [raises_iff_of_top hz hp, stepReport_of_top hr hz hp]
  · rw [step_of_lt hr hz hp] at hstep
    simp only [raises_iff_of_lt hz hp, stepReport_of_lt hr hz hp]
    exact ⟨(effect_of_exec hstep).stop_eq_outOfBounds_iff hs,
      fun _ hraised => handlerReport_of_raisedValue hraised⟩

end Sys2Proof.Machine
end

section
/-!
The state each stop leaves (60_exceptions.md, R262): a handler that ends the run writes the run flag,
the stop cause and, for HALT alone, the pc. The host's stop request is beside it (R256).
-/
namespace Sys2Proof.Machine

section
variable {i : Instr} {s t : State}

/-- Every way a handler other than the zero word's ends the run. -/
theorem Effect.eq_of_run_eq_false (he : Effect i s t) (hs : s.run = true) (hi : i ≠ .stop0)
    (ht : t.run = false) :
    t = (s.setPc 0x0025#16).stopWith .halt ∨ t = s.stopWith .unknownOpcode ∨
      t = s.stopWith .outOfBounds := by
  cases he with
  | halt => exact .inl rfl
  | unknown => exact .inr (.inl rfl)
  | raise => exact .inr (.inr rfl)
  | zeroWord h => exact absurd h hi
  | result | store | jump | link | stay => simp [hs] at ht

theorem stopRequest_of_ready (h : s.run = true) : stopRequest s = s.stopWith .operatorStop :=
  if_pos h

theorem stopRequest_of_halted (h : s.run = false) : stopRequest s = s :=
  if_neg (ne_true_of_eq_false h)

end

/-- Settles O42: each stop is a `stopWith`, of the given state before the pc advance and of the
advanced one after it; only HALT writes the pc besides (D3). -/
theorem stateLeftByEachStop : Obligations.StateLeftByEachStop := by
  unfold Obligations.StateLeftByEachStop
  refine ⟨fun s t hr hstep ht => ?step, fun s hr => stopRequest_of_ready hr⟩
  by_cases hz : fetch s = 0x0000#16
  · rw [step_of_zeroWord hr hz] at hstep
    cases hstep
    simp
  by_cases hp : s.pc = 0xFFFF#16
  · rw [step_of_top hr hz hp] at hstep
    cases hstep
    simp [hp]
  · rw [step_of_lt hr hz hp] at hstep
    rcases (effect_of_exec hstep).eq_of_run_eq_false hr (decode_ne_stop0 (fetch s)) ht with
      rfl | rfl | rfl
    · simp
    · simp [hp]
    · simp [hp]

end Sys2Proof.Machine
end

section
/-!
A stop is final (60_exceptions.md, R264): in Halted a step changes nothing, and of the host's
operations only reset and the two patches change the machine at all.
-/
namespace Sys2Proof.Machine

/-- Any number of steps requested in Halted. -/
theorem coreRun_of_halted (k : Nat) {s : State} (h : s.run = false) :
    Host.Core.run Sys2Proof.core k s = .next s := by
  induction k with
  | zero => rfl
  | succ k ih =>
    have hstep : Sys2Proof.core.step s = .next s := step_of_halted h
    simpa only [Host.Core.run, hstep] using ih

theorem sameRun_of_eq {s t : State} (h : t = s) : Claims.SameRun s t :=
  ⟨congrArg State.run h, congrArg State.stop h⟩

section
variable {b : Session} (h : b.machine.run = false)
include h

theorem Session.apply_load_of_halted (start : Word) (image : List Word) :
    b.apply (.load start image) = (b, .loadRefused) := by
  simp [Session.apply, h]

/-- Every operation but reset keeps the run flag and the stop cause of a halted machine. -/
theorem Session.apply_sameRun_of_halted {op : HostOp} (hop : op ≠ .reset) :
    Claims.SameRun b.machine (b.apply op).1.machine := by
  cases op with
  | reset => exact absurd rfl hop
  | load start image =>
    rw [apply_load_of_halted h start image]
    exact sameRun_of_eq rfl
  | step => exact sameRun_of_eq (stepState_of_halted h)
  | run fuel => exact sameRun_of_eq (runToCompletion_of_halted fuel h)
  | stopRequest => exact sameRun_of_eq (stopRequest_of_halted h)
  | writeReg r v => exact ⟨b.machine.wr_run r v, b.machine.wr_stop r v⟩
  | writeMem a v => exact ⟨b.machine.setMem_run a v, b.machine.setMem_stop a v⟩
  | readReg | readPc | readCc | readRun | readStop | readMem | dumpRegs | dumpMem =>
    exact sameRun_of_eq rfl

end

/-- Settles O43: the steps by induction on their number, the host's operations one by one; the patches
write whatever the run flag is. -/
theorem stopIsFinalUntilReset : Obligations.StopIsFinalUntilReset := by
  unfold Obligations.StopIsFinalUntilReset
  refine ⟨fun k s h => coreRun_of_halted k h, fun b op h hop => ?operation,
    fun b => ⟨fun r v => ?register, fun a v => ?memory, ?reset⟩⟩
  case operation =>
    obtain ⟨hrun, hstop⟩ := Session.apply_sameRun_of_halted h hop
    exact ⟨hrun.trans h, hstop⟩
  case register => exact b.machine.rd_wr_same r v
  case memory => exact b.machine.mem.read_write_same a v
  case reset => rfl

end Sys2Proof.Machine
end

section
/-!
The decoder on the encoder's words (R108, `decode(encode(i)) = i`): each field of the word of an
instruction is the part of its operand bits at that place.
-/
namespace Sys2Proof

theorem decode_unknown8 {w : Word} (hop : Field.opcode w = 0x8#4) :
    decode w = .unknown8 (Field.rest w) := by
  simp [decode, hop]

theorem decode_unknownD {w : Word} (hop : Field.opcode w = 0xD#4) :
    decode w = .unknownD (Field.rest w) := by
  simp [decode, hop]

section
variable (i : Instr)

@[simp] theorem Field.regAt9_encode :
    Field.regAt9 (encode i) = Reg.ofBits (i.operandBits.extractLsb' 9 3) :=
  congrArg Reg.ofBits (field_of_word i.opcode i.operandBits (by decide))

@[simp] theorem Field.regAt6_encode :
    Field.regAt6 (encode i) = Reg.ofBits (i.operandBits.extractLsb' 6 3) :=
  congrArg Reg.ofBits (field_of_word i.opcode i.operandBits (by decide))

@[simp] theorem Field.regAt0_encode :
    Field.regAt0 (encode i) = Reg.ofBits (i.operandBits.extractLsb' 0 3) :=
  congrArg Reg.ofBits (field_of_word i.opcode i.operandBits (by decide))

@[simp] theorem Field.imm5_encode :
    Field.imm5 (encode i) = i.operandBits.extractLsb' 0 5 :=
  field_of_word i.opcode i.operandBits (by decide)

@[simp] theorem Field.offset6_encode :
    Field.offset6 (encode i) = i.operandBits.extractLsb' 0 6 :=
  field_of_word i.opcode i.operandBits (by decide)

@[simp] theorem Field.pcOffset9_encode :
    Field.pcOffset9 (encode i) = i.operandBits.extractLsb' 0 9 :=
  field_of_word i.opcode i.operandBits (by decide)

@[simp] theorem Field.pcOffset11_encode :
    Field.pcOffset11 (encode i) = i.operandBits.extractLsb' 0 11 :=
  field_of_word i.opcode i.operandBits (by decide)

@[simp] theorem Field.trapvect8_encode :
    Field.trapvect8 (encode i) = i.operandBits.extractLsb' 0 8 :=
  field_of_word i.opcode i.operandBits (by decide)

theorem getElem_encode {k : Nat} (hk : k < 12) : (encode i)[k] = i.operandBits[k] :=
  bit_of_word i.opcode i.operandBits hk

@[simp] theorem Field.mode5_encode : Field.mode5 (encode i) = i.operandBits[5] :=
  (BitVec.getLsbD_eq_getElem (by decide)).trans (getElem_encode i (by decide))

@[simp] theorem Field.mode11_encode : Field.mode11 (encode i) = i.operandBits[11] :=
  (BitVec.getLsbD_eq_getElem (by decide)).trans (getElem_encode i (by decide))

end

/-- The form bit of a word of opcode 0x1, 0x4 or 0x5 and the two names of opcodes 0xC and 0xF are
where well-formedness and the fixed bits of a format come in; the rest is the fields of the format. -/
theorem decode_encode {i : Instr} (hwf : i.wf = true) (hne : i ≠ .stop0) :
    decode (encode i) = i := by
  have hop := opcode_encode i
  cases i with
  | stop0 => exact absurd rfl hne
  | br n z p off => simp [decode_br hop, getElem_encode, Instr.operandBits]
  | addReg dr sr1 sr2 =>
    have hmode : Field.mode5 (encode (.addReg dr sr1 sr2)) = false := by simp [Instr.operandBits]
    simp [decode_addReg hop hmode, Instr.operandBits]
  | addImm dr sr1 imm5 =>
    have hmode : Field.mode5 (encode (.addImm dr sr1 imm5)) = true := by simp [Instr.operandBits]
    simp [decode_addImm hop hmode, Instr.operandBits]
  | ld dr off => simp [decode_ld hop, Instr.operandBits]
  | st sr off => simp [decode_st hop, Instr.operandBits]
  | jsr off =>
    have hmode : Field.mode11 (encode (.jsr off)) = true := by simp [Instr.operandBits]
    simp [decode_jsr hop hmode, Instr.operandBits]
  | jsrr baseR =>
    have hmode : Field.mode11 (encode (.jsrr baseR)) = false := by simp [Instr.operandBits]
    simp [decode_jsrr hop hmode, Instr.operandBits]
  | andReg dr sr1 sr2 =>
    have hmode : Field.mode5 (encode (.andReg dr sr1 sr2)) = false := by simp [Instr.operandBits]
    simp [decode_andReg hop hmode, Instr.operandBits]
  | andImm dr sr1 imm5 =>
    have hmode : Field.mode5 (encode (.andImm dr sr1 imm5)) = true := by simp [Instr.operandBits]
    simp [decode_andImm hop hmode, Instr.operandBits]
  | ldr dr baseR off => simp [decode_ldr hop, Instr.operandBits]
  | str sr baseR off => simp [decode_str hop, Instr.operandBits]
  | unknown8 rest => rw [decode_unknown8 hop, rest_encode, Instr.operandBits]
  | not dr sr => simp [decode_not hop, Instr.operandBits]
  | ldi dr off => simp [decode_ldi hop, Instr.operandBits]
  | sti sr off => simp [decode_sti hop, Instr.operandBits]
  | ret => rfl
  | jmp baseR =>
    have hbase : Field.regAt6 (encode (.jmp baseR)) = baseR := by simp [Instr.operandBits]
    have hne7 : baseR ≠ .r7 := of_decide_eq_true hwf
    rw [decode_jmp hop, hbase, if_neg hne7]
  | unknownD rest => rw [decode_unknownD hop, rest_encode, Instr.operandBits]
  | lea dr off => simp [decode_lea hop, Instr.operandBits]
  | halt => rfl
  | trap v =>
    have hvect : Field.trapvect8 (encode (.trap v)) = v := by simp [Instr.operandBits]
    have hneHalt : v ≠ Config.haltVector := of_decide_eq_true hwf
    rw [decode_trap hop, hvect, if_neg hneHalt]

theorem decode_zero : decode 0x0000#16 = .br false false false 0#9 := rfl

/-- The decoder gives the zero word a BR that no word stands for. -/
theorem encode_ne_zero {i : Instr} (hwf : i.wf = true) (hne : i ≠ .stop0) :
    encode i ≠ 0x0000#16 := by
  intro hzero
  have hbr : i = .br false false false 0#9 := by
    rw [← decode_encode hwf hne, hzero, decode_zero]
  rw [hbr] at hwf
  exact absurd hwf (by decide)

theorem decodeWord_encode {i : Instr} (hwf : i.wf = true) : decodeWord (encode i) = i := by
  by_cases hstop : i = .stop0
  · rw [hstop]
    rfl
  · rw [decodeWord_of_ne (encode_ne_zero hwf hstop), decode_encode hwf hstop]

/-- Settles O1: the fields read back what the format laid down, and no other instruction has the zero
word. -/
theorem decodeOfEncodeIsTheInstruction : Obligations.DecodeOfEncodeIsTheInstruction := by
  unfold Obligations.DecodeOfEncodeIsTheInstruction
  exact fun i hwf => ⟨decodeWord_encode hwf, decode_encode hwf⟩

end Sys2Proof
end

section
/-!
The encoder on the decoder's instructions (R108, `encode(decode(w)) = w`): a word is its fields in
order, so an encoding gives it back when the bits between the fields are those of its format (R100).
-/
namespace Sys2Proof

open Sys2Proof.Claims

theorem encode_eq_of_parts {i : Instr} {w : Word} (hop : Field.opcode w = i.opcode)
    (hbits : i.operandBits = Field.rest w) : encode i = w := by
  rw [encode, ← hop, hbits, ← word_eq_append]

/-! ## A word's fields in order -/

section
variable (w : Word)

theorem extractLsb'_one (k : Nat) : w.extractLsb' k 1 = BitVec.ofBool (w.getLsbD k) := by
  ext j hj
  obtain rfl : j = 0 := by omega
  simp

/-- `n` bits above `m` bits. -/
theorem extractLsb'_split (k m n : Nat) :
    w.extractLsb' k (n + m) = w.extractLsb' (k + m) n ++ w.extractLsb' k m :=
  (BitVec.extractLsb'_append_extractLsb'_eq_extractLsb' rfl).symm

theorem rest_eq_pc9 : Field.rest w = w.extractLsb' 9 3 ++ w.extractLsb' 0 9 :=
  extractLsb'_split w 0 9 3

theorem regs_eq_append : w.extractLsb' 6 6 = w.extractLsb' 9 3 ++ w.extractLsb' 6 3 :=
  extractLsb'_split w 6 3 3

theorem rest_eq_base6 :
    Field.rest w = w.extractLsb' 9 3 ++ w.extractLsb' 6 3 ++ w.extractLsb' 0 6 := by
  rw [← regs_eq_append]
  exact extractLsb'_split w 0 6 6

theorem rest_eq_opr :
    Field.rest w =
      w.extractLsb' 9 3 ++ w.extractLsb' 6 3 ++ w.extractLsb' 3 3 ++ w.extractLsb' 0 3 := by
  have hhigh : w.extractLsb' 3 9 = w.extractLsb' 6 6 ++ w.extractLsb' 3 3 :=
    extractLsb'_split w 3 3 6
  rw [← regs_eq_append, ← hhigh]
  exact extractLsb'_split w 0 3 9

theorem rest_eq_opi :
    Field.rest w =
      w.extractLsb' 9 3 ++ w.extractLsb' 6 3 ++ w.extractLsb' 5 1 ++ w.extractLsb' 0 5 := by
  have hhigh : w.extractLsb' 5 7 = w.extractLsb' 6 6 ++ w.extractLsb' 5 1 :=
    extractLsb'_split w 5 1 6
  rw [← regs_eq_append, ← hhigh]
  exact extractLsb'_split w 0 5 7

theorem rest_eq_br :
    Field.rest w =
      w.extractLsb' 11 1 ++ w.extractLsb' 10 1 ++ w.extractLsb' 9 1 ++ w.extractLsb' 0 9 := by
  have hnz : w.extractLsb' 10 2 = w.extractLsb' 11 1 ++ w.extractLsb' 10 1 :=
    extractLsb'_split w 10 1 1
  have hnzp : w.extractLsb' 9 3 = w.extractLsb' 10 2 ++ w.extractLsb' 9 1 :=
    extractLsb'_split w 9 1 2
  rw [← hnz, ← hnzp]
  exact rest_eq_pc9 w

theorem rest_eq_jsr : Field.rest w = w.extractLsb' 11 1 ++ w.extractLsb' 0 11 :=
  extractLsb'_split w 0 11 1

theorem rest_eq_trap : Field.rest w = w.extractLsb' 8 4 ++ w.extractLsb' 0 8 :=
  extractLsb'_split w 0 8 4

end

/-! ## The operand bits of the decoded instruction -/

section
variable {w : Word}

theorem extractLsb'_of_and_eq {mask fill : Word} (h : w &&& mask = fill) {k n : Nat}
    (hmask : mask.extractLsb' k n = BitVec.allOnes n) :
    w.extractLsb' k n = fill.extractLsb' k n := by
  rw [← h, BitVec.extractLsb'_and, hmask, BitVec.and_allOnes]

/-- Bits 5 to 3 of format OPR: the form bit and the two unused bits (R89). -/
theorem opr_fixed (hmode : Field.mode5 w = false) (h : w &&& 0x0018#16 = 0x0000#16) :
    w.extractLsb' 3 3 = 0b000#3 := by
  have hsplit : w.extractLsb' 3 3 = w.extractLsb' 5 1 ++ w.extractLsb' 3 2 :=
    extractLsb'_split w 3 2 1
  have hbit : w.extractLsb' 5 1 = 0b0#1 := by rw [extractLsb'_one]; exact congrArg _ hmode
  rw [hsplit, hbit, extractLsb'_of_and_eq h rfl]
  rfl

/-- Bits 11 to 9 of format JSRR: the form bit and the two unused bits (R97). -/
theorem jsrr_fixed (hmode : Field.mode11 w = false) (h : w &&& 0x063F#16 = 0x0000#16) :
    w.extractLsb' 9 3 = 0b000#3 := by
  have hsplit : w.extractLsb' 9 3 = w.extractLsb' 11 1 ++ w.extractLsb' 9 2 :=
    extractLsb'_split w 9 2 1
  have hbit : w.extractLsb' 11 1 = 0b0#1 := by rw [extractLsb'_one]; exact congrArg _ hmode
  rw [hsplit, hbit, extractLsb'_of_and_eq h rfl]
  rfl

end

/-! ## The word of the decoded instruction, format by format -/

section
variable {w : Word} {i : Instr} (hop : Field.opcode w = i.opcode)
include hop

theorem encode_eq_of_pc9 (hbits : i.operandBits = (Field.regAt9 w).bits ++ Field.pcOffset9 w) :
    encode i = w :=
  encode_eq_of_parts hop (by
    rw [hbits, rest_eq_pc9, Field.regAt9, Reg.bits_ofBits, Field.pcOffset9])

theorem encode_eq_of_base6 {f : BitVec 6}
    (hbits : i.operandBits = (Field.regAt9 w).bits ++ (Field.regAt6 w).bits ++ f)
    (hlow : w.extractLsb' 0 6 = f) : encode i = w :=
  encode_eq_of_parts hop (by
    rw [hbits, rest_eq_base6, hlow, Field.regAt9, Field.regAt6, Reg.bits_ofBits, Reg.bits_ofBits])

theorem encode_eq_of_opr
    (hbits : i.operandBits =
      (Field.regAt9 w).bits ++ (Field.regAt6 w).bits ++ 0b000#3 ++ (Field.regAt0 w).bits)
    (hfixed : w.extractLsb' 3 3 = 0b000#3) : encode i = w :=
  encode_eq_of_parts hop (by
    rw [hbits, rest_eq_opr, hfixed]
    simp only [Field.regAt9, Field.regAt6, Field.regAt0, Reg.bits_ofBits])

theorem encode_eq_of_opi
    (hbits : i.operandBits =
      (Field.regAt9 w).bits ++ (Field.regAt6 w).bits ++ 0b1#1 ++ Field.imm5 w)
    (hmode : Field.mode5 w = true) : encode i = w :=
  encode_eq_of_parts hop (by
    have hbit : w.getLsbD 5 = true := hmode
    rw [hbits, rest_eq_opi, extractLsb'_one, hbit]
    simp only [Field.regAt9, Field.regAt6, Field.imm5, Reg.bits_ofBits]
    rfl)

/-- The base register of JMP, RET and JSRR among fixed bits. -/
theorem encode_eq_of_base {b : BitVec 3} (hbits : i.operandBits = 0b000#3 ++ b ++ 0b000000#6)
    (hbase : w.extractLsb' 6 3 = b) (hhigh : w.extractLsb' 9 3 = 0b000#3)
    (hlow : w.extractLsb' 0 6 = 0b000000#6) : encode i = w :=
  encode_eq_of_parts hop (by rw [hbits, rest_eq_base6, hhigh, hbase, hlow])

theorem encode_eq_of_trap {v : BitVec 8} (hbits : i.operandBits = 0b0000#4 ++ v)
    (hvect : Field.trapvect8 w = v) (h : w &&& 0x0F00#16 = 0x0000#16) : encode i = w :=
  encode_eq_of_parts hop (by
    have hhigh : w.extractLsb' 8 4 = 0b0000#4 := extractLsb'_of_and_eq h rfl
    rw [hbits, rest_eq_trap, hhigh, ← hvect, Field.trapvect8])

end

section
variable {w : Word}

theorem encode_decode_br (hop : Field.opcode w = 0x0#4) : encode (decode w) = w := by
  rw [decode_br hop]
  refine encode_eq_of_parts hop ?_
  rw [rest_eq_br, extractLsb'_one, extractLsb'_one, extractLsb'_one]
  rfl

theorem encode_decode_jsr (hop : Field.opcode w = 0x4#4) (hmode : Field.mode11 w = true) :
    encode (decode w) = w := by
  have hbit : w.getLsbD 11 = true := hmode
  rw [decode_jsr hop hmode]
  refine encode_eq_of_parts hop ?_
  rw [rest_eq_jsr, extractLsb'_one, hbit]
  rfl

/-- Both names of a word of opcode 0xC, with the unused bits 0. -/
theorem encode_decode_jmp (hop : Field.opcode w = 0xC#4) (h : w &&& 0x0E3F#16 = 0x0000#16) :
    encode (decode w) = w := by
  have hhigh : w.extractLsb' 9 3 = 0b000#3 := extractLsb'_of_and_eq h rfl
  have hlow : w.extractLsb' 0 6 = 0b000000#6 := extractLsb'_of_and_eq h rfl
  by_cases hr7 : Field.regAt6 w = .r7
  · rw [decode_jmp hop, if_pos hr7]
    exact encode_eq_of_base hop rfl (Reg.ofBits_eq_iff.mp hr7) hhigh hlow
  · rw [decode_jmp_of_ne_r7 hop hr7]
    exact encode_eq_of_base hop rfl (Reg.bits_ofBits _).symm hhigh hlow

/-- Both names of a word of opcode 0xF, with the unused bits 0. -/
theorem encode_decode_trap (hop : Field.opcode w = 0xF#4) (h : w &&& 0x0F00#16 = 0x0000#16) :
    encode (decode w) = w := by
  by_cases hv : Field.trapvect8 w = 0x25#8
  · rw [decode_trap_haltVector hop hv]
    exact encode_eq_of_trap hop rfl hv h
  · rw [decode_trap_of_ne hop hv]
    exact encode_eq_of_trap hop rfl rfl h

theorem opcode_cases (op : BitVec 4) :
    op = 0x0#4 ∨ op = 0x1#4 ∨ op = 0x2#4 ∨ op = 0x3#4 ∨ op = 0x4#4 ∨ op = 0x5#4 ∨ op = 0x6#4 ∨
      op = 0x7#4 ∨ op = 0x8#4 ∨ op = 0x9#4 ∨ op = 0xA#4 ∨ op = 0xB#4 ∨ op = 0xC#4 ∨ op = 0xD#4 ∨
      op = 0xE#4 ∨ op = 0xF#4 := by
  revert op
  decide

theorem encode_decode_of_canonical (h : w &&& unusedMask (decode w) = unusedFill (decode w)) :
    encode (decode w) = w := by
  rcases opcode_cases (Field.opcode w) with hop | hop | hop | hop | hop | hop | hop | hop | hop | hop |
    hop | hop | hop | hop | hop | hop
  · exact encode_decode_br hop
  · cases hmode : Field.mode5 w with
    | true => rw [decode_addImm hop hmode]; exact encode_eq_of_opi hop rfl hmode
    | false =>
      rw [decode_addReg hop hmode] at h ⊢
      exact encode_eq_of_opr hop rfl (opr_fixed hmode h)
  · rw [decode_ld hop]; exact encode_eq_of_pc9 hop rfl
  · rw [decode_st hop]; exact encode_eq_of_pc9 hop rfl
  · cases hmode : Field.mode11 w with
    | true => exact encode_decode_jsr hop hmode
    | false =>
      rw [decode_jsrr hop hmode] at h ⊢
      change w &&& 0x063F#16 = 0x0000#16 at h
      exact encode_eq_of_base hop rfl (Reg.bits_ofBits _).symm (jsrr_fixed hmode h)
        (extractLsb'_of_and_eq h rfl)
  · cases hmode : Field.mode5 w with
    | true => rw [decode_andImm hop hmode]; exact encode_eq_of_opi hop rfl hmode
    | false =>
      rw [decode_andReg hop hmode] at h ⊢
      exact encode_eq_of_opr hop rfl (opr_fixed hmode h)
  · rw [decode_ldr hop]; exact encode_eq_of_base6 hop rfl rfl
  · rw [decode_str hop]; exact encode_eq_of_base6 hop rfl rfl
  · rw [decode_unknown8 hop]; exact encode_eq_of_parts hop rfl
  · rw [decode_not hop] at h ⊢; exact encode_eq_of_base6 hop rfl (extractLsb'_of_and_eq h rfl)
  · rw [decode_ldi hop]; exact encode_eq_of_pc9 hop rfl
  · rw [decode_sti hop]; exact encode_eq_of_pc9 hop rfl
  · rw [unusedMask_decode_jmp hop] at h
    have hfill : unusedFill (decode w) = 0x0000#16 := by rw [decode_jmp hop]; split <;> rfl
    exact encode_decode_jmp hop (h.trans hfill)
  · rw [decode_unknownD hop]; exact encode_eq_of_parts hop rfl
  · rw [decode_lea hop]; exact encode_eq_of_pc9 hop rfl
  · rw [unusedMask_decode_trap hop] at h
    have hfill : unusedFill (decode w) = 0x0000#16 := by rw [decode_trap hop]; split <;> rfl
    exact encode_decode_trap hop (h.trans hfill)

/-- Settles O3: the encoder's word has its own unused bits, and on the canonical words the fields of
the format and its fixed bits make up the word. -/
theorem encodeOfDecodeOnCanonicalWords : Obligations.EncodeOfDecodeOnCanonicalWords := by
  unfold Obligations.EncodeOfDecodeOnCanonicalWords
  refine fun w => ⟨fun hround => ?canonical, encode_decode_of_canonical⟩
  case canonical =>
    calc w &&& unusedMask (decode w)
      _ = encode (decode w) &&& unusedMask (decode w) := by rw [hround]
      _ = unusedFill (decode w) := encode_and_unusedMask (decode w)

/-! ## Every word means a well-formed instruction -/

/-- The named cases are the arms of `decode` for the opcodes with two forms or two names. -/
theorem opcode_decode (w : Word) : (decode w).opcode = Field.opcode w := by
  unfold decode
  split
  case h_2 hop | h_5 hop | h_6 hop | h_13 hop =>
    split <;> exact (BitVec.eq_of_toNat_eq hop).symm
  case h_16 =>
    have hlt := (Field.opcode w).isLt
    have hop : (Field.opcode w).toNat = 15 := by grind
    split <;> exact (BitVec.eq_of_toNat_eq hop).symm
  all_goals
    next hop => exact (BitVec.eq_of_toNat_eq hop).symm

theorem opcode_of_decode_eq {i : Instr} (h : decode w = i) : Field.opcode w = i.opcode := by
  rw [← h, opcode_decode]

/-- An ill-formed BR has the zero word; the decoder gives JMP R7 and TRAP 0x25 their other names. -/
theorem decode_wf (hne : w ≠ 0x0000#16) : (decode w).wf = true := by
  cases hd : decode w with
  | br n z p off =>
    by_contra hwf
    have hbr : decode w = .br false false false 0#9 := by
      rw [hd]
      simpa [Instr.wf, and_assoc] using hwf
    apply hne
    calc w
      _ = encode (decode w) := (encode_decode_br (opcode_of_decode_eq hd)).symm
      _ = 0x0000#16 := by rw [hbr]; rfl
  | jmp baseR =>
    have hop : Field.opcode w = 0xC#4 := opcode_of_decode_eq hd
    rw [decode_jmp hop] at hd
    split at hd
    · cases hd
    · next hr7 =>
      cases hd
      exact decide_eq_true hr7
  | trap v =>
    have hop : Field.opcode w = 0xF#4 := opcode_of_decode_eq hd
    rw [decode_trap hop] at hd
    split at hd
    · cases hd
    · next hv =>
      cases hd
      exact decide_eq_true hv
  | _ => rfl

theorem decodeWord_wf (w : Word) : (decodeWord w).wf = true := by
  by_cases hzero : w = 0x0000#16
  · rw [hzero]
    rfl
  · rw [decodeWord_of_ne hzero]
    exact decode_wf hzero

/-- Settles O2: the second part is the round trip of well-formed instructions. -/
theorem everyWordIsAWellFormedInstruction : Obligations.EveryWordIsAWellFormedInstruction := by
  unfold Obligations.EveryWordIsAWellFormedInstruction
  exact fun w => ⟨decodeWord_wf w, decodeWord_encode (decodeWord_wf w)⟩

end

/-- Settles O5: the zero-word test takes one word out of opcode 0x0, and the decoder makes the others a
BR. -/
theorem onlyTheZeroWordIsTheStopWord : Obligations.OnlyTheZeroWordIsTheStopWord := by
  unfold Obligations.OnlyTheZeroWordIsTheStopWord
  exact ⟨decodeWord_eq_stop0_iff,
    fun w hop hne => ⟨_, _, _, _, (decodeWord_of_ne hne).trans (decode_br hop)⟩⟩

/-- Settles O8: the encoder appends the operand bits to the opcode, which is the table's for each row. -/
theorem opcodeStandsInTheTopFourBits : Obligations.OpcodeStandsInTheTopFourBits := by
  unfold Obligations.OpcodeStandsInTheTopFourBits Laws.OpcodeField.Statement
  intro i
  refine (opcode_encode i).trans ?_
  cases i <;> rfl

/-- Settles O7: thirteen closed words. -/
theorem vectorWordsDecode : Obligations.VectorWordsDecode := by
  unfold Obligations.VectorWordsDecode
  decide

end Sys2Proof

namespace Sys2Proof.Machine

open Sys2Proof.Claims

/-- A branch with no condition bit is never taken. -/
theorem exec_br_none (off : BitVec 9) (s : State) :
    exec (.br false false false off) s = .next s :=
  exec_br_of_not_taken off (by simp [Taken])

/-- Settles O6: no condition bit of that BR is set, so it is never taken. -/
theorem decoderGivesTheZeroWordAHarmlessBr : Obligations.DecoderGivesTheZeroWordAHarmlessBr := by
  unfold Obligations.DecoderGivesTheZeroWordAHarmlessBr
  refine ⟨decode_zero, fun s => ?harmless, decode_ne_stop0, fun w hne => decodeWord_of_ne hne⟩
  case harmless =>
    rw [decode_zero]
    exact exec_br_none 0#9 s

end Sys2Proof.Machine
end

section
/-!
What a handler's report says of the state it leaves (R128), read off the shapes of `Effect`; the step
from Ready inherits it, and no step fails to answer (R127).
-/
namespace Sys2Proof.Machine

/-- The instructions whose handler ends the run without a value out of range. -/
def endsRun : Instr → Bool
  | .stop0 | .unknown8 _ | .unknownD _ | .halt => true
  | .trap v => decide (v = Config.haltVector)
  | _ => false

section
variable {i : Instr} {s t : State}

theorem handlerReport_of_goesOn (hr : raisedValue i s = none) (hi : endsRun i = false) :
    handlerReport i s = .executed i := by
  cases i with
  | stop0 | unknown8 | unknownD | halt => cases hi
  | trap v =>
    have hv : v ≠ Config.haltVector := of_decide_eq_false hi
    simp [handlerReport, hr, hv]
  | _ => simp [handlerReport, hr]

theorem endsRun_of_resultReg {dr : Reg} (hi : resultReg i = some dr) : endsRun i = false := by
  cases i with
  | stop0 | unknown8 | unknownD | halt | trap => cases hi
  | _ => rfl

theorem endsRun_of_storeAddress {a : Word} (hi : storeAddress i s = some a) :
    endsRun i = false := by
  cases i with
  | stop0 | unknown8 | unknownD | halt | trap => cases hi
  | _ => rfl

theorem endsRun_of_plainJump (hi : plainJump i = true) : endsRun i = false := by
  cases i with
  | stop0 | unknown8 | unknownD | halt => cases hi
  | trap v => exact decide_eq_false (of_decide_eq_true hi)
  | _ => rfl

/-- A step or handler with this report either executed its instruction, with the run flag and the stop
cause as they were, or ended the run with the cause the report stands for. -/
def ReportFits (r : Report) (s t : State) : Prop :=
  ((∃ i, r = .executed i) ∧ t.run = s.run ∧ t.stop = s.stop) ∨
    (r.cause = t.stop ∧ t.run = false ∧ t.stop ≠ .none)

theorem reportFits_stopWith {r : Report} {c : StopCause} (u : State) (hcause : r.cause = c)
    (hne : c ≠ .none) : ReportFits r s (u.stopWith c) :=
  .inr ⟨hcause, rfl, hne⟩

theorem Effect.reportFits (he : Effect i s t) : ReportFits (handlerReport i s) s t := by
  cases he with
  | result dr v hi hr =>
    exact .inl ⟨⟨i, handlerReport_of_goesOn hr (endsRun_of_resultReg hi)⟩, rfl, rfl⟩
  | store a v hi hr =>
    exact .inl ⟨⟨i, handlerReport_of_goesOn hr (endsRun_of_storeAddress hi)⟩, rfl, rfl⟩
  | jump a hi hr =>
    exact .inl ⟨⟨i, handlerReport_of_goesOn hr (endsRun_of_plainJump hi)⟩, rfl, rfl⟩
  | link a hi hr =>
    have hgoes : endsRun i = false := by rcases hi with ⟨_, rfl⟩ | ⟨_, rfl⟩ <;> rfl
    exact .inl ⟨⟨i, handlerReport_of_goesOn hr hgoes⟩, rfl, rfl⟩
  | stay hi hr =>
    have hgoes : endsRun i = false := by obtain ⟨_, _, _, _, rfl⟩ := hi; rfl
    exact .inl ⟨⟨i, handlerReport_of_goesOn hr hgoes⟩, rfl, rfl⟩
  | raise v hr =>
    have hcause : (handlerReport i s).cause = .outOfBounds := by
      rw [handlerReport_of_raisedValue hr]
      rfl
    exact reportFits_stopWith s hcause (by decide)
  | halt hi =>
    have hcause : (handlerReport i s).cause = .halt := by rcases hi with rfl | rfl <;> rfl
    exact reportFits_stopWith _ hcause (by decide)
  | zeroWord hi =>
    have hcause : (handlerReport i s).cause = .zeroWord := by rw [hi]; rfl
    exact reportFits_stopWith _ hcause (by decide)
  | unknown hi =>
    have hcause : (handlerReport i s).cause = .unknownOpcode := by
      rcases hi with ⟨_, rfl⟩ | ⟨_, rfl⟩ <;> rfl
    exact reportFits_stopWith _ hcause (by decide)

theorem exists_step_eq_next (s : State) : ∃ t, step s = .next t := by
  rcases step_spec s with ⟨_, hstep⟩ | ⟨_, _, hstep⟩ | ⟨_, _, _, hstep⟩ | ⟨_, _, _, hstep⟩
  · exact ⟨_, hstep⟩
  · exact ⟨_, hstep⟩
  · exact ⟨_, hstep⟩
  · obtain ⟨t, hexec, _⟩ := exec_effect (decode (fetch s)) (s.setPc (s.pc + 1#16))
    exact ⟨t, hstep.trans hexec⟩

theorem stepState_of_step (h : step s = .next t) : stepState s = t := by
  rw [stepState, h]

theorem step_eq_next_stepState (s : State) : step s = .next (stepState s) := by
  obtain ⟨t, hstep⟩ := exists_step_eq_next s
  rw [stepState_of_step hstep, hstep]

theorem stepReport_reportFits (hr : s.run = true) (hstep : step s = .next t) :
    ReportFits (stepReport s) s t := by
  by_cases hz : fetch s = 0x0000#16
  · rw [step_of_zeroWord hr hz] at hstep
    cases hstep
    rw [stepReport_of_zeroWord hr hz]
    exact reportFits_stopWith s rfl (by decide)
  by_cases hp : s.pc = 0xFFFF#16
  · rw [step_of_top hr hz hp] at hstep
    cases hstep
    rw [stepReport_of_top hr hz hp]
    exact reportFits_stopWith s rfl (by decide)
  · rw [step_of_lt hr hz hp] at hstep
    rw [stepReport_of_lt hr hz hp]
    exact (effect_of_exec hstep).reportFits

end

/-- Settles O17: the cycle's branches are next states, and `exec` always is one. -/
theorem everyStepAnswersANextState : Obligations.EveryStepAnswersANextState := by
  unfold Obligations.EveryStepAnswersANextState
  refine ⟨exists_step_eq_next, fun i s => ?handler⟩
  case handler =>
    obtain ⟨t, hexec, _⟩ := exec_effect i s
    exact ⟨t, hexec⟩

/-- Settles O18: by whether the step executed its instruction or ended the run. -/
theorem reportAgreesWithTheStateAfter : Obligations.ReportAgreesWithTheStateAfter := by
  unfold Obligations.ReportAgreesWithTheStateAfter
  intro s t hr hs hstep
  have hcontinue : shouldContinue s = t.run := congrArg State.run (stepState_of_step hstep)
  rcases stepReport_reportFits hr hstep with ⟨⟨i, hreport⟩, hrun, hstop⟩ | ⟨hcause, hrun, hstop⟩
  · refine ⟨?_, hcontinue, fun _ => ⟨i, hreport⟩, fun _ => hrun.trans hr⟩
    rw [hreport, hstop, hs]
    rfl
  · refine ⟨hcause, hcontinue, fun hgoes => ?_, ?_⟩
    · exact absurd hgoes (ne_true_of_eq_false hrun)
    · rintro ⟨i, hreport⟩
      rw [hreport] at hcause
      exact absurd hcause.symm hstop

end Sys2Proof.Machine
end

section
/-!
The words of an unknown opcode (R126), the words named RET (R209), and the addressing modes (R160).
-/
namespace Sys2Proof.Machine

section
variable {s : State}

/-- The step on an unknown word, whichever of the two constructors names it. -/
theorem step_of_unknown (hr : s.run = true) (hp : s.pc ≠ 0xFFFF#16)
    (hop : Field.opcode (fetch s) = 0x8#4 ∨ Field.opcode (fetch s) = 0xD#4) :
    step s = .next ((s.setPc (s.pc + 1#16)).stopWith .unknownOpcode) ∧
      stepReport s = .unknownOpcode (fetch s) := by
  have hw : fetch s ≠ 0x0000#16 := by
    intro hzero
    rw [hzero] at hop
    exact absurd hop (by decide)
  rw [step_of_lt hr hw hp, stepReport_of_lt hr hw hp]
  rcases hop with hop | hop
  · have hword : encode (.unknown8 (Field.rest (fetch s))) = fetch s := encode_eq_of_parts hop rfl
    rw [decode_unknown8 hop]
    exact ⟨rfl, congrArg Report.unknownOpcode hword⟩
  · have hword : encode (.unknownD (Field.rest (fetch s))) = fetch s := encode_eq_of_parts hop rfl
    rw [decode_unknownD hop]
    exact ⟨rfl, congrArg Report.unknownOpcode hword⟩

end

/-- Settles O16: no such word is the zero word, and its operand bits are all of its other bits, so the
report's word is the one fetched. -/
theorem unknownOpcodeStopsTheRun : Obligations.UnknownOpcodeStopsTheRun := by
  unfold Obligations.UnknownOpcodeStopsTheRun
  exact ⟨fun s hr hp hop => step_of_unknown hr hp hop, fun s rest => ⟨rfl, rfl⟩⟩

/-- Settles O33: the register field decides the name, and both handlers are one jump. -/
theorem retIsJmpThroughR7 : Obligations.RetIsJmpThroughR7 := by
  unfold Obligations.RetIsJmpThroughR7
  refine ⟨fun w hop hbase => ?word, rfl, rfl, fun s => ⟨exec_ret s, ?same⟩⟩
  case word => exact (decode_jmp hop).trans (if_pos (Reg.ofBits_eq_iff.mpr hbase))
  case same => exact (exec_ret s).trans (exec_jmp .r7 s).symm

/-- Settles O10: sign extension is the two's complement reading. -/
theorem addressingModesAreExactSums : Obligations.AddressingModesAreExactSums := by
  unfold Obligations.AddressingModesAreExactSums
  refine fun s => ⟨fun off => ?pc9, fun off => ?pc11, fun baseR off => ?base6⟩
  case pc9 => rw [pcRel9, sext_eq_toInt]
  case pc11 => rw [pcRel11, sext_eq_toInt]
  case base6 => rw [baseOff6, sext_eq_toInt]

end Sys2Proof.Machine
end

section
/-!
What no instruction changes: the condition code outside the seven classes (R28), the registers but the
destination (R22), the memory but the word a store addresses (R53, R180).
-/
namespace Sys2Proof.Machine

open Sys2Proof.Claims

section
variable {i : Instr} {s t : State}

/-- The seven classes of R28 are the instructions with a register result. -/
theorem setsCc_eq_resultReg (i : Instr) : SetsCc i = resultReg i := by
  cases i <;> rfl

theorem Effect.cc_eq (he : Effect i s t) (hi : SetsCc i = none) : t.cc = s.cc := by
  cases he with
  | result dr v hdr =>
    rw [setsCc_eq_resultReg, hdr] at hi
    cases hi
  | store | jump | link | stay | raise | halt | zeroWord | unknown => rfl

/-- The handler of one of the seven classes writes a result back or raises. -/
theorem exec_of_setsCc {dr : Reg} (s : State) (hi : SetsCc i = some dr) :
    (∃ v, exec i s = .next (s.writeBack dr v)) ∨ exec i s = .next (s.stopWith .outOfBounds) := by
  cases i with
  | addReg | addImm | andReg | andImm | not | lea =>
    cases hi
    exact .inl ⟨_, rfl⟩
  | ld _ off =>
    cases hi
    exact (loadFrom_spec dr (pcRel9 s off) s).imp (fun h => ⟨_, h.2⟩) (·.2)
  | ldr _ baseR off =>
    cases hi
    exact (loadFrom_spec dr (baseOff6 s baseR off) s).imp (fun h => ⟨_, h.2⟩) (·.2)
  | ldi _ off =>
    cases hi
    exact (execLdi_spec dr off s).imp (fun h => ⟨_, h.2⟩) (·.2)
  | _ => cases hi

theorem Effect.rd_eq (he : Effect i s t) {r : Reg} (hw : ¬ WritesReg i r) : t.rd r = s.rd r := by
  cases he with
  | result dr v hdr =>
    have hne : r ≠ dr := by
      rintro rfl
      exact hw (.inl ((setsCc_eq_resultReg i).trans hdr))
    exact s.rd_writeBack_other v hne
  | link a hl =>
    have hne : r ≠ .r7 := by
      rintro rfl
      exact hw (.inr ⟨rfl, hl⟩)
    exact s.rd_wr_other s.pc hne
  | store | jump | stay | raise | halt | zeroWord | unknown => rfl

theorem inRange_of_raisedValue_eq_none {v : Int} (hr : raisedValue i s = none)
    (hc : checkedValue i s = some v) : InRange v := by
  by_contra hv
  rw [raisedValue_of_not_inRange hc hv] at hr
  cases hr

/-- A store that does not raise writes where the rule of its instruction says. -/
theorem storesTo_of_storeAddress {a : Word} (hi : storeAddress i s = some a)
    (hr : raisedValue i s = none) : StoresTo i s a := by
  cases i with
  | st sr off =>
    cases hi
    exact trunc16_toNat_of_inRange (inRange_of_raisedValue_eq_none hr rfl)
  | str sr baseR off =>
    cases hi
    exact trunc16_toNat_of_inRange (inRange_of_raisedValue_eq_none hr rfl)
  | sti sr off =>
    cases hi
    exact ⟨_, trunc16_toNat_of_inRange (inRange_of_raisedValue_eq_none hr rfl), rfl⟩
  | _ => cases hi

theorem Effect.read_eq (he : Effect i s t) {a : Word} (hst : ¬ StoresTo i s a) :
    t.mem.read a = s.mem.read a := by
  cases he with
  | store b v hb hr =>
    have hne : a ≠ b := by
      rintro rfl
      exact hst (storesTo_of_storeAddress hb hr)
    exact s.mem.read_write_other v hne
  | result | jump | link | stay | raise | halt | zeroWord | unknown => rfl

end

/-- Settles O38: among the shapes of `Effect` only the register result writes the condition code. -/
theorem onlySevenClassesWriteTheConditionCode :
    Obligations.OnlySevenClassesWriteTheConditionCode := by
  unfold Obligations.OnlySevenClassesWriteTheConditionCode
  refine ⟨fun i s t hexec => ⟨(effect_of_exec hexec).cc_eq, fun dr hi => ?result⟩,
    fun s r a v => ⟨s.wr_cc r v, s.setMem_cc a v⟩⟩
  case result =>
    rcases exec_of_setsCc s hi with ⟨v, hresult⟩ | hraise
    · cases hexec.symm.trans hresult
      exact .inl (by simp)
    · cases hexec.symm.trans hraise
      exact .inr rfl

/-- Settles O39: only a register result and a link write a register. -/
theorem instructionsWriteOnlyTheirRegister : Obligations.InstructionsWriteOnlyTheirRegister := by
  unfold Obligations.InstructionsWriteOnlyTheirRegister
  exact fun i s t r hexec hw => (effect_of_exec hexec).rd_eq hw

/-- Settles O40: only a store that does not raise writes memory. -/
theorem onlyStoresChangeMemory : Obligations.OnlyStoresChangeMemory := by
  unfold Obligations.OnlyStoresChangeMemory
  exact fun i s t a hexec hst => (effect_of_exec hexec).read_eq hst

end Sys2Proof.Machine
end

section
/-!
The invariant (R33, R36): memory canonical and the run flag true exactly when no stop cause is recorded.
Reset meets it and every operation of the host keeps it.
-/
namespace Sys2Proof.Machine

section
variable {s t : State}

theorem Effect.mem_wf {i : Instr} (he : Effect i s t) (h : s.mem.wf = true) : t.mem.wf = true := by
  cases he with
  | store a v => exact Memory.write_wf h a v
  | result | jump | link | stay | raise | halt | zeroWord | unknown => exact h

theorem step_mem_wf (hstep : step s = .next t) (h : s.mem.wf = true) : t.mem.wf = true := by
  rcases step_spec s with ⟨_, hnext⟩ | ⟨_, _, hnext⟩ | ⟨_, _, _, hnext⟩ | ⟨_, _, _, hexec⟩
  · cases hstep.symm.trans hnext
    exact h
  · cases hstep.symm.trans hnext
    exact h
  · cases hstep.symm.trans hnext
    exact h
  · exact (effect_of_exec (hexec.symm.trans hstep)).mem_wf h

/-- By the report: an executed instruction leaves both as they were, a stop writes both. -/
theorem step_run_iff (hstep : step s = .next t) (h : s.run = true ↔ s.stop = .none) :
    t.run = true ↔ t.stop = .none := by
  cases hr : s.run with
  | false =>
    cases hstep.symm.trans (step_of_halted hr)
    exact h
  | true =>
    rcases stepReport_reportFits hr hstep with ⟨_, hrun, hstop⟩ | ⟨_, hrun, hstop⟩
    · rwa [hrun, hstop]
    · simp [hrun, hstop]

theorem step_inv (hstep : step s = .next t) (h : s.Inv) : t.Inv :=
  ⟨step_mem_wf hstep h.1, step_run_iff hstep h.2⟩

theorem stepState_inv (h : s.Inv) : (stepState s).Inv := step_inv (step_eq_next_stepState s) h

theorem runToCompletion_inv (fuel : Nat) (h : s.Inv) : (runToCompletion fuel s).Inv := by
  induction fuel generalizing s with
  | zero => exact h
  | succ fuel ih =>
    cases hr : s.run with
    | false => rwa [runToCompletion_of_halted (fuel + 1) hr]
    | true =>
      rw [runToCompletion_succ fuel hr]
      exact ih (stepState_inv h)

/-- The inversion of `load`. -/
theorem load_eq_some {start : Word} {image : List Word} (h : load s start image = some t) :
    start.toNat + image.length ≤ Config.memWords ∧
      t = { s with mem := s.mem.place start.toNat image, pc := start } := by
  unfold load at h
  split at h
  · next hfits => exact ⟨hfits, (Option.some.inj h).symm⟩
  · cases h

theorem load_inv {start : Word} {image : List Word} (hload : load s start image = some t)
    (h : s.Inv) : t.Inv := by
  obtain ⟨hfits, rfl⟩ := load_eq_some hload
  exact ⟨Memory.place_wf image h.1 hfits, h.2⟩

theorem setMem_inv (h : s.Inv) (a v : Word) : (s.setMem a v).Inv := ⟨Memory.write_wf h.1 a v, h.2⟩

theorem wr_inv (h : s.Inv) (r : Reg) (v : Word) : (s.wr r v).Inv := h

theorem stopRequest_inv (h : s.Inv) : (stopRequest s).Inv := by
  cases hr : s.run with
  | false => rwa [stopRequest_of_halted hr]
  | true =>
    rw [stopRequest_of_ready hr]
    exact ⟨h.1, by simp⟩

theorem reset_inv : State.reset.Inv := ⟨Memory.nil_wf, by decide⟩

end

/-! ## Load as an operation of the host -/

section
variable {b : Session} {start : Word} {image : List Word}

theorem Session.apply_load_of_late (h : b.stepped = true ∨ b.machine.run = false) :
    b.apply (.load start image) = (b, .loadRefused) := by
  rcases h with h | h <;> simp [Session.apply, h]

theorem Session.apply_load_of_not_fits (h : 65536 < start.toNat + image.length) :
    b.apply (.load start image) = (b, .loadRefused) := by
  simp [Session.apply, load_of_not_fits b.machine h]

theorem Session.apply_load_of_accepted {t : State} (hs : b.stepped = false)
    (hr : b.machine.run = true) (hload : Machine.load b.machine start image = some t) :
    b.apply (.load start image) = ({ b with machine := t }, .done) := by
  simp [Session.apply, hs, hr, hload]

/-- A load is refused whole, or accepted with the effect of `load`. -/
theorem Session.apply_load_cases (b : Session) (start : Word) (image : List Word) :
    b.apply (.load start image) = (b, .loadRefused) ∨
      ∃ t, Machine.load b.machine start image = some t ∧
        b.apply (.load start image) = ({ b with machine := t }, .done) := by
  by_cases hlate : b.stepped = true ∨ b.machine.run = false
  · exact .inl (apply_load_of_late hlate)
  · obtain ⟨hs, hr⟩ := not_or.mp hlate
    cases hload : Machine.load b.machine start image with
    | none => exact .inl (by simp [Session.apply, hload])
    | some t =>
      exact .inr ⟨t, rfl,
        apply_load_of_accepted (eq_false_of_ne_true hs) (eq_true_of_ne_false hr) hload⟩

end

theorem Session.apply_inv (b : Session) (op : HostOp) (h : b.machine.Inv) :
    (b.apply op).1.machine.Inv := by
  cases op with
  | reset => exact reset_inv
  | load start image =>
    rcases b.apply_load_cases start image with happ | ⟨t, hload, happ⟩
    · rwa [happ]
    · rw [happ]
      exact load_inv hload h
  | step => exact stepState_inv h
  | run fuel => exact runToCompletion_inv fuel h
  | writeReg r v => exact wr_inv h r v
  | writeMem a v => exact setMem_inv h a v
  | stopRequest => exact stopRequest_inv h
  | readReg | readPc | readCc | readRun | readStop | readMem | dumpRegs | dumpMem => exact h

/-- Settles O46: memory by the shapes of `Effect`, the run flag and the stop cause by the report. -/
theorem everyStepKeepsTheInvariant : Obligations.EveryStepKeepsTheInvariant := by
  unfold Obligations.EveryStepKeepsTheInvariant
  exact fun s t h hstep => step_inv hstep h

/-- Settles O47: an induction on the fuel for `run` and on the image for a load. -/
theorem everyHostOperationKeepsTheInvariant : Obligations.EveryHostOperationKeepsTheInvariant := by
  unfold Obligations.EveryHostOperationKeepsTheInvariant
  exact Session.apply_inv

/-- Settles O45: reset memory lists nothing. -/
theorem resetMeetsTheInvariant : Obligations.ResetMeetsTheInvariant := by
  unfold Obligations.ResetMeetsTheInvariant
  exact reset_inv

/-- Settles O44: reset memory lists nothing, so every address reads as an unlisted one. -/
theorem resetGivesTheCreatedState : Obligations.ResetGivesTheCreatedState := by
  unfold Obligations.ResetGivesTheCreatedState
  refine ⟨fun r => ?registers, fun a => Memory.get_nil a.toNat, rfl, rfl, rfl, rfl, fun b => rfl⟩
  case registers => cases r <;> rfl

end Sys2Proof.Machine
end

section
/-!
What a load does (R293, R294, R296), and the one bit beside the state that it needs: a step has been made
since reset.
-/
namespace Sys2Proof.Machine

open Sys2Proof.Claims

/-- Settles O48: the address of word `k` is the start plus `k`, without wrap, since the image fits. -/
theorem loadPlacesTheImage : Obligations.LoadPlacesTheImage := by
  unfold Obligations.LoadPlacesTheImage
  intro s start image hfits
  refine ⟨_, load_of_fits s hfits, rfl, fun a k hk ha => ?image, fun a hout => ?outside,
    fun _ => rfl, rfl, rfl, rfl⟩
  case image =>
    rw [Memory.read, ha]
    exact Memory.get_place image s.mem start.toNat hk
  case outside => exact Memory.get_place_other image s.mem start.toNat hout

theorem load_nil (s : State) (start : Word) : load s start [] = some { s with pc := start } :=
  load_of_fits s (Nat.le_of_lt start.isLt)

/-- Settles O51: the one test of `load` refuses the image before any word is written. -/
theorem loadPastTheTopIsRefusedWhole : Obligations.LoadPastTheTopIsRefusedWhole := by
  unfold Obligations.LoadPastTheTopIsRefusedWhole
  refine ⟨fun b start image hpast => Session.apply_load_of_not_fits hpast, fun b start hr hs => ?empty⟩
  case empty => rw [Session.apply_load_of_accepted hs hr (load_nil b.machine start)]

/-- Only `step` and `run` set the bit and only reset clears it. -/
theorem Session.apply_stepped (b : Session) {op : HostOp} (hreset : op ≠ .reset)
    (hstep : op ≠ .step) (hrun : ∀ fuel, op ≠ .run fuel) : (b.apply op).1.stepped = b.stepped := by
  cases op with
  | reset => exact absurd rfl hreset
  | step => exact absurd rfl hstep
  | run fuel => exact absurd rfl (hrun fuel)
  | load start image =>
    rcases b.apply_load_cases start image with happ | ⟨t, _, happ⟩ <;> rw [happ]
  | writeReg | writeMem | stopRequest | readReg | readPc | readCc | readRun | readStop | readMem
  | dumpRegs | dumpMem => rfl

theorem Session.apply_step_stepped (b : Session) :
    (b.apply .step).1.stepped = (b.stepped || b.machine.run) := rfl

theorem Session.apply_run_stepped (b : Session) (fuel : Nat) :
    (b.apply (.run fuel)).1.stepped = (b.stepped || (b.machine.run && decide (fuel ≠ 0))) := rfl

theorem Session.apply_reset (b : Session) : b.apply .reset = (Session.created, .done) := rfl

theorem Session.stepped_of_stepped {b : Session} {op : HostOp} (hreset : op ≠ .reset)
    (h : b.stepped = true) : (b.apply op).1.stepped = true := by
  by_cases hstep : op = .step
  · rw [hstep, apply_step_stepped, h, Bool.true_or]
  by_cases hrun : ∃ fuel, op = .run fuel
  · obtain ⟨fuel, rfl⟩ := hrun
    rw [apply_run_stepped, h, Bool.true_or]
  · exact (b.apply_stepped hreset hstep (not_exists.mp hrun)).trans h

theorem Session.not_stepped_of_not_stepped {b : Session} {op : HostOp} (hstep : op ≠ .step)
    (hrun : ∀ fuel, op ≠ .run fuel) (h : b.stepped = false) : (b.apply op).1.stepped = false := by
  by_cases hreset : op = .reset
  · rw [hreset, apply_reset]
    rfl
  · exact (b.apply_stepped hreset hstep hrun).trans h

/-- Settles O52: the bit and the run flag decide the refusal, and the operations' effect on the bit is
said once. -/
theorem loadIsAcceptedOnlyBeforeTheFirstStep : Obligations.LoadIsAcceptedOnlyBeforeTheFirstStep := by
  unfold Obligations.LoadIsAcceptedOnlyBeforeTheFirstStep
  refine ⟨fun b start image hlate => Session.apply_load_of_late hlate,
    fun b start image hs hr hfits => ?accepted, fun b hr => ?made, fun b hr => ?halted,
    fun b op hop hs => Session.stepped_of_stepped hop hs,
    fun b op hstep hrun hs => Session.not_stepped_of_not_stepped hstep hrun hs, fun b => rfl⟩
  case accepted =>
    have hload := load_of_fits b.machine hfits
    rw [Session.apply_load_of_accepted hs hr hload]
    exact ⟨rfl, hs, hload.symm⟩
  case made => rw [Session.apply_step_stepped, hr, Bool.or_true]
  case halted => rw [Session.apply_step_stepped, hr, Bool.or_false]

end Sys2Proof.Machine
end

section
/-!
The host's step and run (R128, R129, R330), its patches and stop request (R332, R333, R336), and its reads
(R331, R334).
-/
namespace Sys2Proof.Machine

open Sys2Proof.Claims

theorem Session.apply_step (b : Session) :
    b.apply .step = ({ machine := stepState b.machine, stepped := b.stepped || b.machine.run },
      .stepped (stepReport b.machine) (stepState b.machine).run) := rfl

/-- Settles O49: `stepState` is the state the step answers. -/
theorem hostStepIsTheStepOfTheMachine : Obligations.HostStepIsTheStepOfTheMachine := by
  unfold Obligations.HostStepIsTheStepOfTheMachine
  intro b t hstep
  rw [b.apply_step, stepState_of_step hstep]
  exact ⟨rfl, rfl⟩

theorem Session.apply_run_zero (b : Session) :
    b.apply (.run 0) = (b, .ran [] b.machine.run) := by
  simp [Session.apply, runToCompletion, runReports]

theorem Session.apply_run_of_halted {b : Session} (fuel : Nat) (h : b.machine.run = false) :
    b.apply (.run fuel) = (b, .ran [] false) := by
  simp [Session.apply, runToCompletion_of_halted fuel h, runReports_of_halted fuel h, h]

theorem Session.apply_run_succ {b : Session} (fuel : Nat) (h : b.machine.run = true) :
    b.apply (.run (fuel + 1)) =
      (((b.apply .step).1.apply (.run fuel)).1,
        .ran (stepReport b.machine :: runReports fuel (stepState b.machine))
          (runToCompletion fuel (stepState b.machine)).run) := by
  simp [Session.apply, runToCompletion_succ fuel h, runReports_succ fuel h, h]

/-- A run of a Ready machine that ends within its fuel ends with the report of its stop. -/
theorem runReports_ends (fuel : Nat) {s : State} (hr : s.run = true)
    (hend : (runToCompletion fuel s).run = false) :
    ∃ reports last, runReports fuel s = reports ++ [last] ∧
      last.cause = (runToCompletion fuel s).stop := by
  induction fuel generalizing s with
  | zero => exact absurd hr (ne_true_of_eq_false hend)
  | succ fuel ih =>
    rw [runToCompletion_succ fuel hr] at hend ⊢
    rw [runReports_succ fuel hr]
    cases ht : (stepState s).run with
    | true =>
      obtain ⟨reports, last, hreports, hlast⟩ := ih ht hend
      exact ⟨stepReport s :: reports, last, by rw [hreports, List.cons_append], hlast⟩
    | false =>
      rw [runToCompletion_of_halted fuel ht, runReports_of_halted fuel ht]
      refine ⟨[], stepReport s, rfl, ?_⟩
      rcases stepReport_reportFits hr (step_eq_next_stepState s) with ⟨_, hrun, _⟩ | ⟨hcause, _, _⟩
      · rw [hrun, hr] at ht
        cases ht
      · exact hcause

/-- Settles O50: the recursion of `run`, and for its last report an induction on the fuel. -/
theorem runIsTheRepetitionOfStep : Obligations.RunIsTheRepetitionOfStep := by
  unfold Obligations.RunIsTheRepetitionOfStep
  refine ⟨Session.apply_run_zero, fun b fuel hr => Session.apply_run_of_halted fuel hr,
    fun b fuel hr => ⟨_, _, rfl, Session.apply_run_succ fuel hr⟩, fun b fuel _ hr hend => ?ends⟩
  case ends =>
    obtain ⟨reports, last, hreports, hlast⟩ := runReports_ends fuel hr hend
    exact ⟨reports, last, congrArg₂ Reply.ran hreports hend, hlast⟩

/-- Settles O53: the state's own laws of a register and of a memory write. -/
theorem patchChangesItsTargetAlone : Obligations.PatchChangesItsTargetAlone := by
  unfold Obligations.PatchChangesItsTargetAlone
  refine ⟨fun s r v => ?register, State.storedAt_setMem, fun s v => ?fetched,
    fun b => ⟨fun r v => rfl, fun a v => rfl⟩⟩
  case register =>
    exact ⟨s.rd_wr_same r v, fun _ hne => s.rd_wr_other v hne, s.wr_pc r v, s.wr_cc r v,
      ⟨s.wr_run r v, s.wr_stop r v⟩, fun a => congrArg (·.read a) (s.wr_mem r v)⟩
  case fetched => exact s.mem.read_write_same s.pc v

theorem stopRequest_cc (s : State) : (stopRequest s).cc = s.cc := by
  unfold stopRequest
  split <;> rfl

theorem stopRequest_pc (s : State) : (stopRequest s).pc = s.pc := by
  unfold stopRequest
  split <;> rfl

/-- An accepted load writes memory and the pc alone. -/
theorem load_frame {s t : State} {start : Word} {image : List Word}
    (h : load s start image = some t) : t.cc = s.cc ∧ SameRun s t := by
  obtain ⟨_, rfl⟩ := load_eq_some h
  exact ⟨rfl, rfl, rfl⟩

/-- Settles O55: of these operations only an accepted load, a patch and a stop request change the machine
at all. -/
theorem hostCannotPatchControlState : Obligations.HostCannotPatchControlState := by
  unfold Obligations.HostCannotPatchControlState
  intro b op hreset hstep hrun
  cases op with
  | reset => exact absurd rfl hreset
  | step => exact absurd rfl hstep
  | run fuel => exact absurd rfl (hrun fuel)
  | load start image =>
    rcases b.apply_load_cases start image with happ | ⟨t, hload, happ⟩
    · rw [happ]
      exact ⟨rfl, fun h => absurd rfl (h start image), fun _ => ⟨rfl, rfl⟩⟩
    · rw [happ]
      obtain ⟨hcc, hrun⟩ := load_frame hload
      exact ⟨hcc, fun h => absurd rfl (h start image), fun _ => hrun⟩
  | stopRequest =>
    exact ⟨stopRequest_cc b.machine, fun _ => stopRequest_pc b.machine, fun h => absurd rfl h⟩
  | writeReg | writeMem | readReg | readPc | readCc | readRun | readStop | readMem | dumpRegs
  | dumpMem => exact ⟨rfl, fun _ => rfl, fun _ => ⟨rfl, rfl⟩⟩

/-- Settles O57: the request looks at the run flag alone. -/
theorem stopRequestStopsAReadyMachine : Obligations.StopRequestStopsAReadyMachine := by
  unfold Obligations.StopRequestStopsAReadyMachine
  exact ⟨fun s => ⟨stopRequest_of_ready, stopRequest_of_halted⟩, fun b => rfl⟩

/-- Settles O54: each read answers beside the session it was given. -/
theorem readsChangeNothing : Obligations.ReadsChangeNothing := by
  unfold Obligations.ReadsChangeNothing
  intro b
  refine ⟨fun r => rfl, rfl, rfl, rfl, rfl, fun a => rfl, fun a => rfl, ?codes, ?dump⟩
  case codes => decide
  case dump => exact ⟨regDump b.machine, rfl, fun r => rfl, rfl, rfl⟩

/-- Settles O56: natural subtraction clips the low end at 0 and `min` the high end at 65,535, so every
address of the window is a word's value. -/
theorem dumpWindowIsClipped : Obligations.DumpWindowIsClipped := by
  unfold Obligations.DumpWindowIsClipped
  intro s a
  have ha := a.isLt
  refine ⟨a.toNat - 4, min (a.toNat + 4) 65535 + 1 - (a.toNat - 4), by omega, by omega, ?words⟩
  case words =>
    rw [dumpMem, dumpWindow, List.range'_eq_map_range, List.map_map]
    refine List.map_congr_left fun k hk => ?_
    have hlt := List.mem_range.mp hk
    have haddress : a.toNat - 4 + k < 2 ^ 16 := by
      simp only [Config.dumpRadius, Config.memWords] at hlt
      omega
    rw [Memory.read, BitVec.toNat_ofNat, Nat.mod_eq_of_lt haddress]
    rfl

end Sys2Proof.Machine
end
